-- ==== Sys2Proof/Word.lean ====
section
/-! DEFINITION. The two widths of the machine: the 32-bit word ("platter") and the byte of the channels. -/

namespace Sys2Proof

/-- A platter: one unsigned 32-bit word, the unit of data, code and addressing (00_scope.md R8, R15). -/
abbrev Word := BitVec 32

/-- The unit of input and output (00_scope.md R8). -/
abbrev Byte := BitVec 8

end Sys2Proof
end

