-- ==== Sys2Proof/Config.lean ====
section
/-! DEFINITION. The fixed parameters of the machine (00_scope.md R8, R9). The one parameter the spec leaves open,
MEM_CAPACITY_WORDS, is an argument of the model: the field `memCapacity` of State (log 4). -/

namespace Sys2Proof.Config

/-- MAX_SEG_WORDS, the longest segment: 2^32 - 1 words (00_scope.md R9). -/
def maxSegWords : Nat := 2 ^ 32 - 1

/-- NEXT_HANDLE at this value means that the handle space is exhausted (10_state.md R31). -/
def handleSpace : Nat := 2 ^ 32

/-- The byte appended to every line (42_control_io.md R144; the spec's own decision D13, log 14). -/
def lineTerminator : Byte := 0x0A#8

/-- What Input delivers at the end of input (42_control_io.md R144; the spec's own decision D6, log 14). -/
def allOnes : Word := 0xFFFFFFFF#32

/-- The largest value Output accepts (42_control_io.md R142). -/
def maxOutputByte : Nat := 255

/-- The largest immediate of Orthography, 2^25 - 1 (30_encoding.md R88). -/
def maxImmediate : Nat := 0x1FFFFFF

end Sys2Proof.Config
end

