-- ==== Sys2Proof/Syntax.lean ====
section
/-! DEFINITION. The instructions, one constructor for each row of spec/opcode_table.json, in opcode order.
They are the decoded shapes of 30_encoding.md R85: thirteen standard shapes carrying A, B and C, and one immediate shape. -/

namespace Sys2Proof

/-- A 3-bit register index, r0 to r7 (30_encoding.md R89). -/
inductive Reg where
  | r0 | r1 | r2 | r3 | r4 | r5 | r6 | r7
deriving DecidableEq, Repr

/-- The decoded instruction (30_encoding.md R84, R85). A field that an operation does not use is decoded and carried all
the same (R87). -/
inductive Instr where
  /-- Conditional Move, opcode 0. -/
  | cmov (a b c : Reg)
  /-- Array Index, opcode 1. -/
  | index (a b c : Reg)
  /-- Array Amendment, opcode 2. -/
  | amend (a b c : Reg)
  /-- Addition, opcode 3. -/
  | add (a b c : Reg)
  /-- Multiplication, opcode 4. -/
  | mul (a b c : Reg)
  /-- Division, opcode 5. -/
  | div (a b c : Reg)
  /-- Not-And, opcode 6. -/
  | nand (a b c : Reg)
  /-- Halt, opcode 7. -/
  | halt (a b c : Reg)
  /-- Allocation, opcode 8. -/
  | alloc (a b c : Reg)
  /-- Abandonment, opcode 9. -/
  | abandon (a b c : Reg)
  /-- Output, opcode 10. -/
  | output (a b c : Reg)
  /-- Input, opcode 11. -/
  | input (a b c : Reg)
  /-- Load Program, opcode 12. -/
  | loadprog (a b c : Reg)
  /-- Orthography, opcode 13; `imm` is `zext_32(w[24:0])` (R85), so a well-formed one is at most 0x1FF_FFFF. -/
  | ortho (a : Reg) (imm : Word)
deriving DecidableEq, Repr

end Sys2Proof
end

