-- ==== Sys2Proof/Decode.lean ====
section
/-! DEFINITION. The decoder (30_encoding.md R81-R88), a pure total function of one word, and after it the encoder (R93). -/

namespace Sys2Proof

/-- The register a 3-bit field names (30_encoding.md R89). -/
def Reg.ofBits (b : BitVec 3) : Reg :=
  match b.toNat with
  | 0 => .r0
  | 1 => .r1
  | 2 => .r2
  | 3 => .r3
  | 4 => .r4
  | 5 => .r5
  | 6 => .r6
  | _ => .r7

/-- The number of a register, the value of a field that names it (30_encoding.md R89). -/
def Reg.number : Reg → Nat
  | .r0 => 0
  | .r1 => 1
  | .r2 => 2
  | .r3 => 3
  | .r4 => 4
  | .r5 => 5
  | .r6 => 6
  | .r7 => 7

/-- `w[31:28]` (30_encoding.md R81). -/
def opcodeField (w : Word) : BitVec 4 := w.extractLsb 31 28

/-- Operand A of the standard layout, `w[8:6]` (30_encoding.md R82). -/
def fieldA (w : Word) : Reg := Reg.ofBits (w.extractLsb 8 6)

/-- Operand B of the standard layout, `w[5:3]` (30_encoding.md R82). -/
def fieldB (w : Word) : Reg := Reg.ofBits (w.extractLsb 5 3)

/-- Operand C of the standard layout, `w[2:0]` (30_encoding.md R82). -/
def fieldC (w : Word) : Reg := Reg.ofBits (w.extractLsb 2 0)

/-- The destination of the immediate layout, `w[27:25]` (30_encoding.md R83). -/
def fieldImmReg (w : Word) : Reg := Reg.ofBits (w.extractLsb 27 25)

/-- The immediate, `zext_32(w[24:0])` (30_encoding.md R83, R88). -/
def fieldImm (w : Word) : Word := (w.extractLsb 24 0).setWidth 32

/-- The decoder's verdict: an instruction, or an invalid opcode by its number (`Unknown(op)` of 30_encoding.md R85). -/
inductive Decoded where
  | instr (i : Instr)
  | unknown (op : BitVec 4)
deriving DecidableEq, Repr

/-- The decoder, total on all 2^32 words (30_encoding.md R85); the opcode map is that of R84. -/
def decode (w : Word) : Decoded :=
  match (opcodeField w).toNat with
  | 0 => .instr (.cmov (fieldA w) (fieldB w) (fieldC w))
  | 1 => .instr (.index (fieldA w) (fieldB w) (fieldC w))
  | 2 => .instr (.amend (fieldA w) (fieldB w) (fieldC w))
  | 3 => .instr (.add (fieldA w) (fieldB w) (fieldC w))
  | 4 => .instr (.mul (fieldA w) (fieldB w) (fieldC w))
  | 5 => .instr (.div (fieldA w) (fieldB w) (fieldC w))
  | 6 => .instr (.nand (fieldA w) (fieldB w) (fieldC w))
  | 7 => .instr (.halt (fieldA w) (fieldB w) (fieldC w))
  | 8 => .instr (.alloc (fieldA w) (fieldB w) (fieldC w))
  | 9 => .instr (.abandon (fieldA w) (fieldB w) (fieldC w))
  | 10 => .instr (.output (fieldA w) (fieldB w) (fieldC w))
  | 11 => .instr (.input (fieldA w) (fieldB w) (fieldC w))
  | 12 => .instr (.loadprog (fieldA w) (fieldB w) (fieldC w))
  | 13 => .instr (.ortho (fieldImmReg w) (fieldImm w))
  | _ => .unknown (opcodeField w)

/-- The instruction of a verdict, if it is one. -/
def Decoded.instr? : Decoded → Option Instr
  | .instr i => some i
  | .unknown _ => none

/-- The instruction the decoder reads from an instruction of `nbits` bits whose bits are `w` (every bit above `nbits` is 0).
Every instruction is one 32-bit word (30_encoding.md R80), so more than 32 bits is no instruction. -/
def decodeTableWord (nbits w : Nat) : Option Instr :=
  if nbits ≤ 32 then (decode (BitVec.ofNat 32 (w % 2 ^ nbits))).instr? else none

/-- The opcode of an instruction (30_encoding.md R84). -/
def Instr.opcode : Instr → Nat
  | .cmov _ _ _ => 0
  | .index _ _ _ => 1
  | .amend _ _ _ => 2
  | .add _ _ _ => 3
  | .mul _ _ _ => 4
  | .div _ _ _ => 5
  | .nand _ _ _ => 6
  | .halt _ _ _ => 7
  | .alloc _ _ _ => 8
  | .abandon _ _ _ => 9
  | .output _ _ _ => 10
  | .input _ _ _ => 11
  | .loadprog _ _ _ => 12
  | .ortho _ _ => 13

/-- A standard-layout word, `op * 2^28 + A * 2^6 + B * 2^3 + C` (30_encoding.md R93): the undefined bits 27-9 are 0 (R91). -/
def encodeStandard (op : Nat) (a b c : Reg) : Word :=
  BitVec.ofNat 32 (op * 2 ^ 28 + a.number * 2 ^ 6 + b.number * 2 ^ 3 + c.number)

/-- An immediate-layout word, `13 * 2^28 + A * 2^25 + imm` (30_encoding.md R93). -/
def encodeImmediate (a : Reg) (imm : Word) : Word :=
  BitVec.ofNat 32 (13 * 2 ^ 28 + a.number * 2 ^ 25 + imm.toNat)

/-- The word of a well-formed instruction (30_encoding.md R93). -/
def encode : Instr → Word
  | .cmov a b c => encodeStandard 0 a b c
  | .index a b c => encodeStandard 1 a b c
  | .amend a b c => encodeStandard 2 a b c
  | .add a b c => encodeStandard 3 a b c
  | .mul a b c => encodeStandard 4 a b c
  | .div a b c => encodeStandard 5 a b c
  | .nand a b c => encodeStandard 6 a b c
  | .halt a b c => encodeStandard 7 a b c
  | .alloc a b c => encodeStandard 8 a b c
  | .abandon a b c => encodeStandard 9 a b c
  | .output a b c => encodeStandard 10 a b c
  | .input a b c => encodeStandard 11 a b c
  | .loadprog a b c => encodeStandard 12 a b c
  | .ortho a imm => encodeImmediate a imm

end Sys2Proof
end

