-- ==== Sys2Proof/Machine/State.lean ====
section
/-! DEFINITION. The state of the block as one record (10_state.md R36), the two reasons for which a call of `step` answers no
next state, and the state after reset (R37). A fault of the SPEC is a next state whose `runState` is `faulted` (60_exceptions.md
R163, R166), not a host fault. -/

namespace Sys2Proof.Machine

/-- The eight general registers, `x[0]` to `x[7]` (10_state.md R20). -/
structure Regs where
  x0 : Word
  x1 : Word
  x2 : Word
  x3 : Word
  x4 : Word
  x5 : Word
  x6 : Word
  x7 : Word
deriving DecidableEq, Repr

/-- RUNSTATE (10_state.md R25). -/
inductive RunState where
  | running
  | halted
  | faulted
deriving DecidableEq, Repr

/-- FAULT_REASON (10_state.md R26), in the order of its codes. -/
inductive FaultReason where
  /-- Code 0, None: the value while Running or Halted. -/
  | noFault
  /-- Code 1: HOST-INIT only (70_reset_and_hazards.md R192, R193). -/
  | loadError
  /-- Code 2: decode of opcode 14 or 15 (30_encoding.md R86). -/
  | unknownOpcode
  /-- Code 3: Division with `x[C] == 0` (40_register_ops.md R104). -/
  | divisionByZero
  /-- Code 4: a handle that is not live, or Abandonment of handle 0 (20_memory.md R54, R59, R60). -/
  | invalidHandle
  /-- Code 5: a data access or a fetch at an index not below the segment's length (20_memory.md R54, R55). -/
  | outOfBoundsIndex
  /-- Code 6: Output with `x[C] > 255` (42_control_io.md R142). -/
  | invalidOutputByte
  /-- Code 7: capacity or handle space exhausted (20_memory.md R58, R60). -/
  | outOfMemory
deriving DecidableEq, Repr

/-- A segment: `len` words, of which `cells` lists those that are not 0, by index (10_state.md R28; log 1). -/
structure Segment where
  /-- The length in words, 0 to MAX_SEG_WORDS = 2^32 - 1 (10_state.md R28). -/
  len : Word
  /-- Index and word, in the canonical form of `Segment.wf`; an index below `len` that is not listed reads as 0. -/
  cells : List (Nat × Word)
deriving DecidableEq, Repr

/-- The segment map: handle and segment, in the canonical form of `Memory.wf`; a handle that is not listed is not live
(10_state.md R28, R29; log 1). -/
abbrev Memory := List (Nat × Segment)

/-- An answer of the line source (60_exceptions.md R176). -/
inductive LineAnswer where
  /-- `Line(bytes)`, the line without its terminator. -/
  | line (bytes : List Byte)
  /-- `EndOfInput`. -/
  | endOfInput
deriving DecidableEq, Repr

/-- A completed transaction on one of the two channels (60_exceptions.md R176, R177). -/
inductive ChannelEvent where
  /-- LINE-IN: `NextLine()` was asked and answered so. -/
  | lineTaken (answer : LineAnswer)
  /-- BYTE-OUT: `WriteFlush(byte)` was acknowledged. -/
  | byteWritten (byte : Byte)
deriving DecidableEq, Repr

/-- The state: first the record of 10_state.md R36, then the model's own fields (INVENTORY.md, State), which hold what the
block's surroundings supply and what the observation records. -/
structure State where
  /-- `x` (10_state.md R20). -/
  regs : Regs
  /-- `pc`, an index into segment 0 (10_state.md R22). -/
  pc : Word
  /-- `RUNSTATE` (10_state.md R25). -/
  runState : RunState
  /-- `FAULT_REASON` (10_state.md R26). -/
  faultReason : FaultReason
  /-- `SEG` (10_state.md R28). -/
  seg : Memory
  /-- `FREELIST`, the oldest retired handle first (10_state.md R30). -/
  freelist : List Word
  /-- `NEXT_HANDLE`, 1 to 2^32 (10_state.md R31). -/
  nextHandle : Nat
  /-- `PENDING_INPUT`, the oldest byte first (10_state.md R33). -/
  pendingInput : List Byte
  /-- `EOF_LATCH` (10_state.md R34). -/
  eofLatch : Bool
  /-- Model's own (DESIGN CHOICE, log 4): the parameter MEM_CAPACITY_WORDS, none when it is infinite (00_scope.md R9). -/
  memCapacity : Option Nat
  /-- Model's own (DESIGN CHOICE, log 2): the answers of the line source that Input has not yet taken, in order. -/
  lineIn : List LineAnswer
  /-- Model's own (DESIGN CHOICE, log 3): how many more writes the byte sink acknowledges, none when it acknowledges all. -/
  sinkAcks : Option Nat
  /-- Model's own (DESIGN CHOICE, log 8): the completed channel transactions, the oldest first (60_exceptions.md R177). -/
  channel : List ChannelEvent
deriving DecidableEq, Repr

/-- Why a call of `step` answers no next state by a fault. -/
inductive Fault where
  /-- Raised by `step` alone (through `noStep`), in a Halted or Faulted state: "A step is never taken from a Halted or Faulted
  state" (60_exceptions.md R163, R171). Safe: the hardware takes no step there either (DESIGN CHOICE, log 5). -/
  | notRunning
deriving DecidableEq, Repr

/-- Why a call of `step` answers no next state by a refusal. -/
inductive Refusal where
  /-- Raised by an arm of `exec` whose instruction has no meaning yet. Safe. No arm of this model raises it: every instruction has
  its meaning, as 60_exceptions.md R163 asks. -/
  | notModelled (mnemonic : String)
deriving DecidableEq, Repr

/-- What one step of this machine answers. -/
abbrev Result := Host.Outcome State Fault Refusal

/-- The state after `Init` of the EMPTY program, with which nothing is loaded (10_state.md R37, 70_reset_and_hazards.md R194).
The block's fields have the spec's reset values; the last four are the model's own (DESIGN CHOICE, logs 2, 3, 4, 8). -/
def State.reset : State where
  regs := ⟨0#32, 0#32, 0#32, 0#32, 0#32, 0#32, 0#32, 0#32⟩
  pc := 0#32
  runState := .running
  faultReason := .noFault
  seg := [(0, ⟨0#32, []⟩)]
  freelist := []
  nextHandle := 1
  pendingInput := []
  eofLatch := false
  memCapacity := none
  lineIn := []
  sinkAcks := none
  channel := []

end Sys2Proof.Machine
end

