-- ==== Sys2Proof/Machine/Memory.lean ====
section
/-! DEFINITION. Memory as data: association lists in ascending order, segments and the segment map (10_state.md R28; log 1). -/

namespace Sys2Proof.Machine

/-- The value under key `k`. -/
def Assoc.find {α : Type} (k : Nat) : List (Nat × α) → Option α
  | [] => none
  | (j, v) :: rest => if k = j then some v else Assoc.find k rest

/-- Put `v` under key `k`, at its place in the ascending order. -/
def Assoc.insert {α : Type} (k : Nat) (v : α) : List (Nat × α) → List (Nat × α)
  | [] => [(k, v)]
  | (j, u) :: rest =>
    if k < j then (k, v) :: (j, u) :: rest
    else if k = j then (k, v) :: rest
    else (j, u) :: Assoc.insert k v rest

/-- Drop key `k`. -/
def Assoc.erase {α : Type} (k : Nat) : List (Nat × α) → List (Nat × α)
  | [] => []
  | (j, u) :: rest => if k = j then Assoc.erase k rest else (j, u) :: Assoc.erase k rest

/-- The keys rise strictly. -/
abbrev Assoc.Sorted {α : Type} (l : List (Nat × α)) : Prop := l.Pairwise (fun p q => p.1 < q.1)

/-- `zeros(n)` (00_scope.md R12, 20_memory.md R58). -/
def Segment.zeros (n : Word) : Segment := ⟨n, []⟩

/-- `s[i]`, for an index below the length: 0 where no cell is listed. -/
def Segment.get (g : Segment) (i : Word) : Word := (Assoc.find i.toNat g.cells).getD 0#32

/-- `s[i] <- v`, for an index below the length; a word that becomes 0 is no longer listed. The length stays. -/
def Segment.set (g : Segment) (i v : Word) : Segment :=
  { g with cells := if v = 0#32 then Assoc.erase i.toNat g.cells else Assoc.insert i.toNat v g.cells }

/-- The cells of the words of a list that are not 0, the first word at index `k`. -/
def Segment.cellsFrom (k : Nat) : List Word → List (Nat × Word)
  | [] => []
  | v :: rest => if v = 0#32 then Segment.cellsFrom (k + 1) rest else (k, v) :: Segment.cellsFrom (k + 1) rest

/-- The segment that holds the words of a list of at most MAX_SEG_WORDS words. -/
def Segment.ofWords (ws : List Word) : Segment := ⟨BitVec.ofNat 32 ws.length, Segment.cellsFrom 0 ws⟩

/-- The segment with `v` at index `i`, longer if it must be (withFetchWord; no instruction does this, 90_conflicts.md C9).
No segment has a word at index 2^32 - 1 (10_state.md R28). -/
def Segment.placeWord (g : Segment) (i v : Word) : Segment :=
  ({ g with len := if i.toNat < g.len.toNat then g.len else i + 1 } : Segment).set i v

/-- The canonical form of a segment: indices rise strictly, lie below the length, and no listed word is 0 (log 1). -/
def Segment.wf (g : Segment) : Bool :=
  decide (Assoc.Sorted g.cells) && g.cells.all (fun p => decide (p.1 < g.len.toNat) && decide (p.2 ≠ 0#32))

/-- The canonical form of the segment map: handles rise strictly and fit 32 bits, and every segment is canonical (log 1). -/
def Memory.wf (m : Memory) : Bool :=
  decide (Assoc.Sorted m) && m.all (fun p => decide (p.1 < Config.handleSpace) && p.2.wf)

/-- `SEG[h]`, none when h is not live (10_state.md R28, R29). -/
def Memory.segment (m : Memory) (h : Word) : Option Segment := Assoc.find h.toNat m

/-- h is in the domain of SEG (10_state.md R29). -/
def Memory.live (m : Memory) (h : Word) : Bool := (m.segment h).isSome

/-- `SEG[h] <- g`. -/
def Memory.put (m : Memory) (h : Word) (g : Segment) : Memory := Assoc.insert h.toNat g m

/-- Remove h from the domain of SEG (20_memory.md R59). -/
def Memory.remove (m : Memory) (h : Word) : Memory := Assoc.erase h.toNat m

/-- `len(SEG[h])`, 0 for a handle that is not live. -/
def Memory.lenOf (m : Memory) (h : Word) : Nat :=
  match m.segment h with
  | none => 0
  | some g => g.len.toNat

/-- `used(SEG)`: the sum of the lengths of the live segments, segment 0 among them (20_memory.md R63). -/
def Memory.used : Memory → Nat
  | [] => 0
  | (_, g) :: rest => g.len.toNat + Memory.used rest

end Sys2Proof.Machine
end

