-- ==== Sys2Proof/Machine/Operands.lean ====
section
/-! DEFINITION. The operand forms: a register named by a 3-bit field (30_encoding.md R89), the zero-extended immediate of
Orthography (R88) and the byte of a channel (42_control_io.md R142, R144). No other form exists. -/

namespace Sys2Proof.Machine

/-- Read one register of the file. -/
def Regs.get (x : Regs) : Reg → Word
  | .r0 => x.x0
  | .r1 => x.x1
  | .r2 => x.x2
  | .r3 => x.x3
  | .r4 => x.x4
  | .r5 => x.x5
  | .r6 => x.x6
  | .r7 => x.x7

/-- Write one register of the file. -/
def Regs.set (x : Regs) (r : Reg) (v : Word) : Regs :=
  match r with
  | .r0 => { x with x0 := v }
  | .r1 => { x with x1 := v }
  | .r2 => { x with x2 := v }
  | .r3 => { x with x3 := v }
  | .r4 => { x with x4 := v }
  | .r5 => { x with x5 := v }
  | .r6 => { x with x6 := v }
  | .r7 => { x with x7 := v }

/-- `x[i]` (00_scope.md R12). -/
def State.reg (s : State) (r : Reg) : Word := s.regs.get r

/-- `x[i] <- v` (00_scope.md R12). No register is hard-wired (10_state.md R20). -/
def State.setReg (s : State) (r : Reg) (v : Word) : State := { s with regs := s.regs.set r v }

/-- The value of an immediate operand. `imm` is the decoder's `zext_32(w[24:0])` (30_encoding.md R85, R88). -/
def immediateValue (imm : Word) : Word := imm

/-- An input byte zero-extended into a word (42_control_io.md R144). -/
def byteToWord (b : Byte) : Word := b.setWidth 32

/-- `v[7:0]` (42_control_io.md R142). -/
def lowByte (v : Word) : Byte := v.extractLsb 7 0

end Sys2Proof.Machine
end

