-- ==== Sys2Proof/Machine/Ops.lean ====
section
/-! DEFINITION. The shared operations: raising a fault (00_scope.md R13), waiting (42_control_io.md R145), the memory manager's
interface MEM (20_memory.md R54-R60) and the two channels (60_exceptions.md R176, R177). A fault has no handler and no return
(60_exceptions.md R166, R168), so nothing stands beside `raise`. -/

namespace Sys2Proof.Machine

/-- `raise F`: RUNSTATE <- Faulted, FAULT_REASON <- F, and the step ends (00_scope.md R13). -/
def raise (f : FaultReason) (s : State) : Result :=
  .next { s with runState := .faulted, faultReason := f }

/-- `pc <- pc + 1`, between decode and execution (60_exceptions.md R161). -/
def State.advance (s : State) : State := { s with pc := s.pc + 1 }

/-- The instruction that is running, fetched at `pc - 1`, must wait for its channel: no state changes (42_control_io.md R145,
60_exceptions.md R177), so the advance of the pc is taken back and the next call of `step` meets the same instruction
(DESIGN CHOICE, logs 2, 3 and 15). -/
def wait (s : State) : Result := .next { s with pc := s.pc - 1 }

/-- No step is taken from a Halted or Faulted state (60_exceptions.md R163; DESIGN CHOICE, log 5). -/
def noStep : Result := .fault .notRunning

/-- The access check, the handle before the index; it answers the segment (20_memory.md R54). -/
def Memory.check (m : Memory) (h i : Word) : Except FaultReason Segment :=
  match m.segment h with
  | none => .error .invalidHandle
  | some g => if i.toNat < g.len.toNat then .ok g else .error .outOfBoundsIndex

/-- `MemRead(h, i)` (20_memory.md R56). -/
def Memory.read (m : Memory) (h i : Word) : Except FaultReason Word :=
  match m.check h i with
  | .error f => .error f
  | .ok g => .ok (g.get i)

/-- `MemWrite(h, i, v)` (20_memory.md R57). -/
def Memory.write (m : Memory) (h i v : Word) : Except FaultReason Memory :=
  match m.check h i with
  | .error f => .error f
  | .ok g => .ok (m.put h (g.set i v))

/-- `Fetch(pc)` (20_memory.md R55). Segment 0 is live in every state a run reaches (10_state.md R32); where it is not, no
index is in range (DESIGN CHOICE, log 7). -/
def State.fetch (s : State) : Except FaultReason Word :=
  match s.seg.segment 0#32 with
  | none => .error .outOfBoundsIndex
  | some g => if s.pc.toNat < g.len.toNat then .ok (g.get s.pc) else .error .outOfBoundsIndex

/-- MEM_CAPACITY_WORDS is finite and `words` exceeds it (20_memory.md R58, R60). -/
def overCapacity (cap : Option Nat) (words : Nat) : Bool :=
  match cap with
  | none => false
  | some limit => decide (limit < words)

/-- `Allocate(n)`: the handle, and the state with the new segment (20_memory.md R58). -/
def State.allocate (s : State) (n : Word) : Except FaultReason (Word × State) :=
  if overCapacity s.memCapacity (s.seg.used + n.toNat) then .error .outOfMemory
  else
    match s.freelist with
    | h :: rest => .ok (h, { s with freelist := rest, seg := s.seg.put h (.zeros n) })
    | [] =>
      if s.nextHandle < Config.handleSpace then
        .ok (BitVec.ofNat 32 s.nextHandle,
          { s with nextHandle := s.nextHandle + 1, seg := s.seg.put (BitVec.ofNat 32 s.nextHandle) (.zeros n) })
      else .error .outOfMemory

/-- `Free(h)` (20_memory.md R59). -/
def State.free (s : State) (h : Word) : Except FaultReason State :=
  if h = 0#32 ∨ s.seg.live h = false then .error .invalidHandle
  else .ok { s with seg := s.seg.remove h, freelist := s.freelist ++ [h] }

/-- `ReplaceProgram(h)`, for a handle that is not 0 (20_memory.md R60). -/
def State.replaceProgram (s : State) (h : Word) : Except FaultReason State :=
  match s.seg.segment h with
  | none => .error .invalidHandle
  | some g =>
    if overCapacity s.memCapacity (s.seg.used - s.seg.lenOf 0#32 + g.len.toNat) then .error .outOfMemory
    else .ok { s with seg := s.seg.put 0#32 g }

/-- `BYTE-OUT.WriteFlush(b)`, none while the sink does not acknowledge (60_exceptions.md R177; log 3). -/
def State.writeFlush (s : State) (b : Byte) : Option State :=
  match s.sinkAcks with
  | none => some { s with channel := s.channel ++ [.byteWritten b] }
  | some 0 => none
  | some (n + 1) => some { s with sinkAcks := some n, channel := s.channel ++ [.byteWritten b] }

/-- What an answer of the line source does: a line is queued with its terminator, the end of input is latched
(42_control_io.md R144). -/
def State.receive (s : State) : LineAnswer → State
  | .line bytes => { s with pendingInput := bytes ++ [Config.lineTerminator] }
  | .endOfInput => { s with eofLatch := true }

/-- The first half of Input: ask the line source if nothing is queued and the end is not latched; none while it does not
answer (42_control_io.md R144, R145; log 2). -/
def State.refill (s : State) : Option State :=
  if s.pendingInput = [] ∧ s.eofLatch = false then
    match s.lineIn with
    | [] => none
    | answer :: rest =>
      some (State.receive { s with lineIn := rest, channel := s.channel ++ [.lineTaken answer] } answer)
  else some s

/-- The second half of Input: the oldest queued byte, or all ones at the end of input (42_control_io.md R144). -/
def State.takeByte (s : State) (c : Reg) : State :=
  match s.pendingInput with
  | [] => s.setReg c Config.allOnes
  | b :: rest => { s with pendingInput := rest }.setReg c (byteToWord b)

/-- The byte of a write. -/
def ChannelEvent.byte? : ChannelEvent → Option Byte
  | .byteWritten b => some b
  | .lineTaken _ => none

/-- The output trace: the bytes written on BYTE-OUT, in order (60_exceptions.md R177). -/
def State.outputTrace (s : State) : List Byte :=
  s.channel.filterMap ChannelEvent.byte?

end Sys2Proof.Machine
end

