-- ==== Sys2Proof/Machine/ControlIo.lean ====
section
/-! DEFINITION. The control and I/O operations: opcodes 7, 10, 11 and 12 (42_control_io.md). -/

namespace Sys2Proof.Machine

/-- Halt; A, B and C are unused (42_control_io.md R140). -/
def execHalt (_a _b _c : Reg) (s : State) : Result := .next { s with runState := .halted }

/-- Output; A and B are unused. The range is checked before the sink is asked (42_control_io.md R142, R143). -/
def execOutput (_a _b c : Reg) (s : State) : Result :=
  if Config.maxOutputByte < (s.reg c).toNat then raise .invalidOutputByte s
  else
    match s.writeFlush (lowByte (s.reg c)) with
    | none => wait s
    | some t => .next t

/-- Input; A and B are unused (42_control_io.md R144, R145). -/
def execInput (_a _b c : Reg) (s : State) : Result :=
  match s.refill with
  | none => wait s
  | some t => .next (t.takeByte c)

/-- Load Program; A is unused. Both operands are read first; the pc is written last, and not at all on a fault
(42_control_io.md R146). -/
def execLoadprog (_a b c : Reg) (s : State) : Result :=
  if s.reg b = 0#32 then .next { s with pc := s.reg c }
  else
    match s.replaceProgram (s.reg b) with
    | .error f => raise f s
    | .ok t => .next { t with pc := s.reg c }

end Sys2Proof.Machine
end

