-- ==== Sys2Proof/Machine/Flags.lean ====
section
/-! DEFINITION. The machine has no status flags, condition codes or predicate registers (10_state.md R24): no flag computation
exists. Its only condition is the test of a general register by Conditional Move. -/

namespace Sys2Proof.Machine

/-- `x[C] != 0`, the condition of Conditional Move (10_state.md R24, 40_register_ops.md R100). -/
def State.conditionHolds (s : State) (c : Reg) : Bool := decide (s.reg c ≠ 0#32)

end Sys2Proof.Machine
end

