-- ==== Sys2Proof/Machine/RegisterOps.lean ====
section
/-! DEFINITION. The register operations: opcodes 0, 3, 4, 5, 6 and 13 (40_register_ops.md). Each meaning runs after the advance
of the pc (00_scope.md R14); all operands are read before the destination is written (70_reset_and_hazards.md R200). -/

namespace Sys2Proof.Machine

/-- The sum modulo 2^32 (40_register_ops.md R101). -/
def sumMod (x y : Word) : Word := x + y

/-- The low 32 bits of the product (40_register_ops.md R102). -/
def productMod (x y : Word) : Word := x * y

/-- The unsigned quotient, none when the divisor is 0 (40_register_ops.md R103, R104). -/
def quotient (x y : Word) : Except FaultReason Word :=
  if y = 0#32 then .error .divisionByZero else .ok (x / y)

/-- Bitwise NAND over 32 bits (40_register_ops.md R105). -/
def notAnd (x y : Word) : Word := ~~~(x &&& y)

/-- Conditional Move (40_register_ops.md R100). -/
def execCmov (a b c : Reg) (s : State) : Result :=
  .next (if s.conditionHolds c then s.setReg a (s.reg b) else s)

/-- Addition (40_register_ops.md R101). -/
def execAdd (a b c : Reg) (s : State) : Result := .next (s.setReg a (sumMod (s.reg b) (s.reg c)))

/-- Multiplication (40_register_ops.md R102). -/
def execMul (a b c : Reg) (s : State) : Result := .next (s.setReg a (productMod (s.reg b) (s.reg c)))

/-- Division (40_register_ops.md R103, R104). -/
def execDiv (a b c : Reg) (s : State) : Result :=
  match quotient (s.reg b) (s.reg c) with
  | .error f => raise f s
  | .ok q => .next (s.setReg a q)

/-- Not-And (40_register_ops.md R105). -/
def execNand (a b c : Reg) (s : State) : Result := .next (s.setReg a (notAnd (s.reg b) (s.reg c)))

/-- Orthography (40_register_ops.md R107). -/
def execOrtho (a : Reg) (imm : Word) (s : State) : Result := .next (s.setReg a (immediateValue imm))

end Sys2Proof.Machine
end

