-- ==== Sys2Proof/Machine/SegmentOps.lean ====
section
/-! DEFINITION. The segment operations: opcodes 1, 2, 8 and 9 (41_segment_ops.md). -/

namespace Sys2Proof.Machine

/-- Array Index (41_segment_ops.md R120). -/
def execIndex (a b c : Reg) (s : State) : Result :=
  match s.seg.read (s.reg b) (s.reg c) with
  | .error f => raise f s
  | .ok v => .next (s.setReg a v)

/-- Array Amendment (41_segment_ops.md R122). -/
def execAmend (a b c : Reg) (s : State) : Result :=
  match s.seg.write (s.reg a) (s.reg b) (s.reg c) with
  | .error f => raise f s
  | .ok m => .next { s with seg := m }

/-- Allocation; A is unused (41_segment_ops.md R124). -/
def execAlloc (_a b c : Reg) (s : State) : Result :=
  match s.allocate (s.reg c) with
  | .error f => raise f s
  | .ok (h, t) => .next (t.setReg b h)

/-- Abandonment; A and B are unused (41_segment_ops.md R127). -/
def execAbandon (_a _b c : Reg) (s : State) : Result :=
  match s.free (s.reg c) with
  | .error f => raise f s
  | .ok t => .next t

end Sys2Proof.Machine
end

