-- ==== Sys2Proof/Machine/Dispatch.lean ====
section
/-! DEFINITION. The dispatcher: one arm for each decoded shape (30_encoding.md R84, 60_exceptions.md R160). -/

namespace Sys2Proof.Machine

def exec (i : Instr) (s : State) : Host.Outcome State Fault Refusal :=
  match i with
  | .cmov a b c => Sys2Proof.Machine.execCmov a b c s
  | .index a b c => Sys2Proof.Machine.execIndex a b c s
  | .amend a b c => Sys2Proof.Machine.execAmend a b c s
  | .add a b c => Sys2Proof.Machine.execAdd a b c s
  | .mul a b c => Sys2Proof.Machine.execMul a b c s
  | .div a b c => Sys2Proof.Machine.execDiv a b c s
  | .nand a b c => Sys2Proof.Machine.execNand a b c s
  | .halt a b c => Sys2Proof.Machine.execHalt a b c s
  | .alloc a b c => Sys2Proof.Machine.execAlloc a b c s
  | .abandon a b c => Sys2Proof.Machine.execAbandon a b c s
  | .output a b c => Sys2Proof.Machine.execOutput a b c s
  | .input a b c => Sys2Proof.Machine.execInput a b c s
  | .loadprog a b c => Sys2Proof.Machine.execLoadprog a b c s
  | .ortho a imm => Sys2Proof.Machine.execOrtho a imm s

end Sys2Proof.Machine
end

