-- ==== Sys2Proof/Machine/Step.lean ====
section
/-! DEFINITION. One step (60_exceptions.md R160), and the placing of a word where the next step fetches it. -/

namespace Sys2Proof.Machine

/-- Fetch, decode, advance the pc, execute; defined only while Running (60_exceptions.md R160, R163). -/
def step (s : State) : Host.Outcome State Fault Refusal :=
  match s.runState with
  | .halted => noStep
  | .faulted => noStep
  | .running =>
    match s.fetch with
    | .error f => raise f s
    | .ok w =>
      match decode w with
      | .unknown _ => raise .unknownOpcode s
      | .instr i => exec i s.advance

/-- `s` with the instruction whose `nbits` bits are `w` at index pc of segment 0, which is made long enough to hold it, and with
RUNSTATE Running, so that the next step fetches and runs it. It stands for the load of a program (log 6). A pc of 2^32 - 1 is
the one index at which no segment has a word (10_state.md R28): nothing can be fetched there. -/
def State.withFetchWord (s : State) (nbits w : Nat) : State :=
  { s with
    runState := .running
    faultReason := .noFault
    seg := s.seg.put 0#32 (((s.seg.segment 0#32).getD (.zeros 0#32)).placeWord s.pc (BitVec.ofNat 32 (w % 2 ^ nbits))) }

end Sys2Proof.Machine
end

