-- ==== Sys2Proof/Machine/HostPort.lean ====
section
/-! DEFINITION. What the host, the line source and the byte sink do at the block's boundary (00_scope.md R7, 60_exceptions.md
R178): HOST-INIT, HOST-STATUS, the arrival of an answer on LINE-IN and of an acknowledge on BYTE-OUT. None of these is an
instruction; each happens between steps (log 16). -/

namespace Sys2Proof.Machine

/-- Four bytes as one word, the first in bits 31-24 (70_reset_and_hazards.md R191). -/
def wordOfBytes (b0 b1 b2 b3 : Byte) : Word :=
  BitVec.ofNat 32 (b0.toNat * 2 ^ 24 + b1.toNat * 2 ^ 16 + b2.toNat * 2 ^ 8 + b3.toNat)

/-- `words(p)`: the bytes in groups of four (70_reset_and_hazards.md R191). -/
def programWords : List Byte → List Word
  | b0 :: b1 :: b2 :: b3 :: rest => wordOfBytes b0 b1 b2 b3 :: programWords rest
  | _ => []

/-- `Init` fails with LoadError: the length is not a multiple of 4, or the program has too many words
(70_reset_and_hazards.md R192, R193). -/
def loadFails (cap : Option Nat) (program : List Byte) : Bool :=
  decide (program.length % 4 ≠ 0) || decide (Config.maxSegWords < program.length / 4) ||
    overCapacity cap (program.length / 4)

/-- `Init(program_bytes)`, with the parameter MEM_CAPACITY_WORDS: a fresh state (70_reset_and_hazards.md R190-R193, 10_state.md R37).
The line source has not been asked for anything (R195). -/
def State.init (cap : Option Nat) (program : List Byte) : State :=
  if loadFails cap program then
    { State.reset with memCapacity := cap, runState := .faulted, faultReason := .loadError }
  else
    { State.reset with memCapacity := cap, seg := [(0, Segment.ofWords (programWords program))] }

/-- The line source gives one more answer (60_exceptions.md R176). -/
def State.lineAnswered (s : State) (answer : LineAnswer) : State := { s with lineIn := s.lineIn ++ [answer] }

/-- The byte sink acknowledges one more write (60_exceptions.md R177). -/
def State.sinkAcknowledges (s : State) : State := { s with sinkAcks := s.sinkAcks.map (· + 1) }

/-- The 2-bit code of RUNSTATE; 3 is never produced (10_state.md R25). -/
def RunState.code : RunState → BitVec 2
  | .running => 0
  | .halted => 1
  | .faulted => 2

/-- The 3-bit code of FAULT_REASON (10_state.md R26). -/
def FaultReason.code : FaultReason → BitVec 3
  | .noFault => 0
  | .loadError => 1
  | .unknownOpcode => 2
  | .divisionByZero => 3
  | .invalidHandle => 4
  | .outOfBoundsIndex => 5
  | .invalidOutputByte => 6
  | .outOfMemory => 7

/-- What HOST-STATUS shows between steps (60_exceptions.md R179). -/
structure HostStatus where
  runState : BitVec 2
  faultReason : BitVec 3
  regs : Regs
  pc : Word
  seg : Memory
deriving DecidableEq, Repr

/-- A read of HOST-STATUS (00_scope.md R7, 60_exceptions.md R179). -/
def State.hostStatus (s : State) : HostStatus :=
  ⟨s.runState.code, s.faultReason.code, s.regs, s.pc, s.seg⟩

end Sys2Proof.Machine
end

