-- ==== Sys2Proof/Safety.lean ====
section
/-! DEFINITION. The terms in which claims about the machine are stated: the invariant of a run, the states a run reaches, the
waits, and the frames (what an instruction leaves unchanged). -/

namespace Sys2Proof.Machine

/-- The handle invariant (10_state.md R30, R31, R32): 0 is live; a handle that was issued is live or retired and not both; one that
was not issued is neither; the freelist holds no handle twice and never 0. -/
structure HandleInv (s : State) : Prop where
  zeroLive : s.seg.live 0#32 = true
  nextRange : 1 ≤ s.nextHandle ∧ s.nextHandle ≤ Config.handleSpace
  issued : ∀ h : Word, 1 ≤ h.toNat → h.toNat < s.nextHandle → (s.seg.live h = true ↔ h ∉ s.freelist)
  fresh : ∀ h : Word, s.nextHandle ≤ h.toNat → s.seg.live h = false ∧ h ∉ s.freelist
  noRepeats : s.freelist.Nodup
  neverZero : 0#32 ∉ s.freelist

/-- The invariant of a run. -/
structure State.Inv (s : State) : Prop where
  /-- Memory is in its canonical form (log 1). -/
  memory : s.seg.wf = true
  handles : HandleInv s
  /-- FAULT_REASON is None exactly when RUNSTATE is not Faulted (10_state.md R26). -/
  reason : s.faultReason = .noFault ↔ s.runState ≠ .faulted
  /-- The live segments fit the capacity (20_memory.md R58, R60; 70_reset_and_hazards.md R193). -/
  capacity : overCapacity s.memCapacity s.seg.used = false
  /-- After the end of input nothing is queued (42_control_io.md R144). -/
  ended : s.eofLatch = true → s.pendingInput = []

/-- The states that runs reach: `Init` of any program under any capacity, then steps, answers of the line source and acknowledges
of the byte sink in any order, with a sink that acknowledges any number of writes (60_exceptions.md R178). -/
inductive Reachable : State → Prop where
  | init (cap : Option Nat) (program : List Byte) (acks : Option Nat) :
      Reachable { State.init cap program with sinkAcks := acks }
  | step {s t : State} : Reachable s → Machine.step s = .next t → Reachable t
  | lineAnswered {s : State} (answer : LineAnswer) : Reachable s → Reachable (s.lineAnswered answer)
  | sinkAcknowledges {s : State} : Reachable s → Reachable s.sinkAcknowledges

/-- The instruction waits: Output for the acknowledge of a byte, Input for a line (60_exceptions.md R184). -/
def Waits : Instr → State → Prop
  | .output _ _ c, s => (s.reg c).toNat ≤ 255 ∧ s.sinkAcks = some 0
  | .input _ _ _, s => s.pendingInput = [] ∧ s.eofLatch = false ∧ s.lineIn = []
  | .cmov _ _ _, _ => False
  | .index _ _ _, _ => False
  | .amend _ _ _, _ => False
  | .add _ _ _, _ => False
  | .mul _ _ _, _ => False
  | .div _ _ _, _ => False
  | .nand _ _ _, _ => False
  | .halt _ _ _, _ => False
  | .alloc _ _ _, _ => False
  | .abandon _ _ _, _ => False
  | .loadprog _ _ _, _ => False
  | .ortho _ _, _ => False

/-- Every register that `written` does not name is unchanged. -/
def SameRegsBut (written : Reg → Prop) (s t : State) : Prop := ∀ r, ¬ written r → t.reg r = s.reg r

/-- Every register is unchanged. -/
def SameRegs (s t : State) : Prop := ∀ r, t.reg r = s.reg r

/-- Every word that `stored` does not name reads as before; a word that could not be read still cannot, for the same reason. -/
def SameMemoryBut (stored : Word → Word → Prop) (s t : State) : Prop :=
  ∀ h i, ¬ stored h i → t.seg.read h i = s.seg.read h i

/-- Every word of memory reads as before; so the same handles are live, with the same lengths. -/
def SameMemory (s t : State) : Prop := ∀ h i, t.seg.read h i = s.seg.read h i

/-- FREELIST and NEXT_HANDLE are unchanged. -/
def SameAllocator (s t : State) : Prop := t.freelist = s.freelist ∧ t.nextHandle = s.nextHandle

/-- RUNSTATE and FAULT_REASON are unchanged. -/
def SameStatus (s t : State) : Prop := t.runState = s.runState ∧ t.faultReason = s.faultReason

/-- PENDING_INPUT, EOF_LATCH and the line source's answers are unchanged. -/
def SameInput (s t : State) : Prop :=
  t.pendingInput = s.pendingInput ∧ t.eofLatch = s.eofLatch ∧ t.lineIn = s.lineIn

/-- The sink and the trace of channel transactions are unchanged. -/
def SameOutput (s t : State) : Prop := t.sinkAcks = s.sinkAcks ∧ t.channel = s.channel

/-- The only change is to the register `a` (the pc, already advanced, stays as it is). -/
structure OnlyRegChanges (a : Reg) (s t : State) : Prop where
  regs : SameRegsBut (fun r => r = a) s t
  pc : t.pc = s.pc
  status : SameStatus s t
  memory : SameMemory s t
  allocator : SameAllocator s t
  input : SameInput s t
  output : SameOutput s t
  capacity : t.memCapacity = s.memCapacity

/-- `raise F` and nothing else (00_scope.md R13). -/
structure OnlyRaises (f : FaultReason) (s t : State) : Prop where
  runState : t.runState = .faulted
  faultReason : t.faultReason = f
  regs : SameRegs s t
  pc : t.pc = s.pc
  memory : SameMemory s t
  allocator : SameAllocator s t
  input : SameInput s t
  output : SameOutput s t
  capacity : t.memCapacity = s.memCapacity

/-- The only change is to memory, at the words `stored` names. -/
structure OnlyMemoryChanges (stored : Word → Word → Prop) (s t : State) : Prop where
  regs : SameRegs s t
  pc : t.pc = s.pc
  status : SameStatus s t
  memory : SameMemoryBut stored s t
  allocator : SameAllocator s t
  input : SameInput s t
  output : SameOutput s t
  capacity : t.memCapacity = s.memCapacity

/-- Of the registers only `b` changes, of memory only the segment `h`; FREELIST and NEXT_HANDLE may change. -/
structure OnlyAllocates (b : Reg) (h : Word) (s t : State) : Prop where
  regs : SameRegsBut (fun r => r = b) s t
  pc : t.pc = s.pc
  status : SameStatus s t
  memory : SameMemoryBut (fun k _ => k = h) s t
  input : SameInput s t
  output : SameOutput s t
  capacity : t.memCapacity = s.memCapacity

/-- Only the segment `h` and FREELIST change. -/
structure OnlyRetires (h : Word) (s t : State) : Prop where
  regs : SameRegs s t
  pc : t.pc = s.pc
  status : SameStatus s t
  memory : SameMemoryBut (fun k _ => k = h) s t
  nextHandle : t.nextHandle = s.nextHandle
  input : SameInput s t
  output : SameOutput s t
  capacity : t.memCapacity = s.memCapacity

/-- RUNSTATE may change; nothing else does. -/
structure OnlyRunStateChanges (s t : State) : Prop where
  faultReason : t.faultReason = s.faultReason
  regs : SameRegs s t
  pc : t.pc = s.pc
  memory : SameMemory s t
  allocator : SameAllocator s t
  input : SameInput s t
  output : SameOutput s t
  capacity : t.memCapacity = s.memCapacity

/-- The sink and the channel trace may change; nothing else does. -/
structure OnlyOutputChanges (s t : State) : Prop where
  regs : SameRegs s t
  pc : t.pc = s.pc
  status : SameStatus s t
  memory : SameMemory s t
  allocator : SameAllocator s t
  input : SameInput s t
  capacity : t.memCapacity = s.memCapacity

/-- Register `c`, PENDING_INPUT, EOF_LATCH, the line source's answers and the channel trace may change; nothing else does. -/
structure OnlyInputChanges (c : Reg) (s t : State) : Prop where
  regs : SameRegsBut (fun r => r = c) s t
  pc : t.pc = s.pc
  status : SameStatus s t
  memory : SameMemory s t
  allocator : SameAllocator s t
  sinkAcks : t.sinkAcks = s.sinkAcks
  capacity : t.memCapacity = s.memCapacity

/-- The pc may change and so may memory at the words `stored` names; nothing else does. -/
structure OnlyJumps (stored : Word → Word → Prop) (s t : State) : Prop where
  regs : SameRegs s t
  status : SameStatus s t
  memory : SameMemoryBut stored s t
  allocator : SameAllocator s t
  input : SameInput s t
  output : SameOutput s t
  capacity : t.memCapacity = s.memCapacity

/-- The registers an instruction may write, as 10_state.md R20 lists them. -/
def Writes : Instr → State → Reg → Prop
  | .cmov a _ c, s, r => r = a ∧ s.reg c ≠ 0#32
  | .index a _ _, _, r => r = a
  | .amend _ _ _, _, _ => False
  | .add a _ _, _, r => r = a
  | .mul a _ _, _, r => r = a
  | .div a _ _, _, r => r = a
  | .nand a _ _, _, r => r = a
  | .halt _ _ _, _, _ => False
  | .alloc _ b _, _, r => r = b
  | .abandon _ _ _, _, _ => False
  | .output _ _ _, _, _ => False
  | .input _ _ c, _, r => r = c
  | .loadprog _ _ _, _, _ => False
  | .ortho a _, _, r => r = a

/-- `n` Inputs into register `c`, one after the other: the values delivered, and the state after them. -/
def inputs (c : Reg) : Nat → State → Option (List Word × State)
  | 0, s => some ([], s)
  | n + 1, s =>
    match exec (.input .r0 .r0 c) s with
    | .next t => (inputs c n t).map fun p => (t.reg c :: p.1, p.2)
    | .fault _ => none
    | .refused _ => none

/-- `words` words in all fit the capacity: MEM_CAPACITY_WORDS is infinite or at least `words` (00_scope.md R9). -/
def Fits (cap : Option Nat) (words : Nat) : Prop := ∀ limit, cap = some limit → words ≤ limit

/-- The thirteen standard shapes and their opcodes (30_encoding.md R84). -/
def standardShapes : List (Nat × (Reg → Reg → Reg → Instr)) :=
  [(0, .cmov), (1, .index), (2, .amend), (3, .add), (4, .mul), (5, .div), (6, .nand), (7, .halt), (8, .alloc),
    (9, .abandon), (10, .output), (11, .input), (12, .loadprog)]

/-- `w` is a standard-layout word with opcode `op` and fields A, B and C: `w[31:28]`, `w[8:6]`, `w[5:3]` and `w[2:0]` as numbers
(00_scope.md R10, 30_encoding.md R82). -/
def StandardWord (op : Nat) (a b c : Reg) (w : Word) : Prop :=
  w.toNat / 2 ^ 28 = op ∧ w.toNat / 2 ^ 6 % 8 = a.number ∧ w.toNat / 2 ^ 3 % 8 = b.number ∧ w.toNat % 8 = c.number

/-- `w` is an immediate-layout word: `w[31:28] = 13`, A is `w[27:25]`, imm is `w[24:0]` (30_encoding.md R83). -/
def ImmediateWord (a : Reg) (imm : Nat) (w : Word) : Prop :=
  w.toNat / 2 ^ 28 = 13 ∧ w.toNat / 2 ^ 25 % 8 = a.number ∧ w.toNat % 2 ^ 25 = imm

end Sys2Proof.Machine
end

