-- ==== Sys2Proof/WellFormed.lean ====
section
/-! DEFINITION. Which instruction terms have an encoding (30_encoding.md R88, R91). -/

namespace Sys2Proof

/-- The immediate fits 25 bits: "Its range is 0 to 0x1FF_FFFF" (30_encoding.md R88); "An `ortho` immediate above
0x1FF_FFFF is an assembly error" (R91). -/
def immediateFits (imm : Word) : Bool := decide (imm.toNat ≤ Config.maxImmediate)

/-- Every register index has an encoding, so only the immediate can be out of range. -/
def Instr.wellFormed : Instr → Bool
  | .cmov _ _ _ => true
  | .index _ _ _ => true
  | .amend _ _ _ => true
  | .add _ _ _ => true
  | .mul _ _ _ => true
  | .div _ _ _ => true
  | .nand _ _ _ => true
  | .halt _ _ _ => true
  | .alloc _ _ _ => true
  | .abandon _ _ _ => true
  | .output _ _ _ => true
  | .input _ _ _ => true
  | .loadprog _ _ _ => true
  | .ortho _ imm => immediateFits imm

end Sys2Proof
end

