-- ==== Sys2Proof/Certificates/Slice0/Obligations.lean ====
section
/-! DEFINITION. The statements for the provers. Each docstring names the rule of spec/ it formalises. "The model's choice" marks
a clause that rests on an entry of the assumption log. -/

open Sys2Proof Sys2Proof.Machine

/-! ## Encoding -/

/-- A few words written out from 30_encoding.md R82, R83 (the table of 95_test_vectors.md 2.1 lists all but 0x2000009C). That set bits 27-9 of the
standard layout have no effect is R87 (the spec's decision D2); the words of opcodes 14 and 15 are R85 and R86. -/
def Obligations.SpecWordsDecode : Prop :=
  decode 0x0FFFFFFF#32 = .instr (.cmov .r7 .r7 .r7) ∧
  decode 0x12345678#32 = .instr (.index .r1 .r7 .r0) ∧
  decode 0x2000009C#32 = .instr (.amend .r2 .r3 .r4) ∧
  decode 0x30000053#32 = .instr (.add .r1 .r2 .r3) ∧
  decode 0xA00001FF#32 = .instr (.output .r7 .r7 .r7) ∧
  decode 0xC0000010#32 = .instr (.loadprog .r0 .r2 .r0) ∧
  decode 0xDA00002A#32 = .instr (.ortho .r5 42#32) ∧
  decode 0xD1FFFFFF#32 = .instr (.ortho .r0 0x1FFFFFF#32) ∧
  decode 0xD0000000#32 = .instr (.ortho .r0 0#32) ∧
  decode 0xE0000000#32 = .unknown 14#4 ∧
  decode 0xFFFFFFFF#32 = .unknown 15#4

/-- 30_encoding.md R83, R85: every word is of one of the thirteen standard shapes, of the immediate shape or unknown, by its opcode, and
the decoder answers the instruction with the fields' values. -/
def Obligations.DecoderReadsFields : Prop :=
  (∀ op shape, (op, shape) ∈ standardShapes → ∀ a b c w, StandardWord op a b c w → decode w = .instr (shape a b c)) ∧
  (∀ a imm w, ImmediateWord a imm w → decode w = .instr (.ortho a (BitVec.ofNat 32 imm))) ∧
  (∀ w : Word, 14 ≤ w.toNat / 2 ^ 28 → decode w = .unknown (BitVec.ofNat 4 (w.toNat / 2 ^ 28))) ∧
  (∀ w : Word, (∃ op shape a b c, (op, shape) ∈ standardShapes ∧ StandardWord op a b c w) ∨
    (∃ a imm, ImmediateWord a imm w) ∨ 14 ≤ w.toNat / 2 ^ 28)

/-- Decoding the encoding of a well-formed instruction gives it back, with every operand (30_encoding.md R82, R83, R93). -/
def Obligations.DecodeEncodeRoundTrip : Prop := ∀ i : Instr, i.wellFormed = true → decode (encode i) = .instr i

/-- Encoding a decoded instruction gives its word back: whole in the immediate layout, and with the undefined bits 27-9 cleared in the
standard layout (30_encoding.md R82, R83, R91, R93). -/
def Obligations.EncodeDecodeKeepsDefinedBits : Prop :=
  ∀ w i, decode w = .instr i →
    i.wellFormed = true ∧ i.opcode = w.toNat / 2 ^ 28 ∧
    (i.opcode ≤ 12 → (encode i).toNat = w.toNat / 2 ^ 28 * 2 ^ 28 + w.toNat % 2 ^ 9) ∧ (i.opcode = 13 → encode i = w)

/-- 30_encoding.md R87 (which rests on the spec's decision D2): the bits and fields that a format or an operation does not define have
no effect, and every word of opcodes 0 to 13 is an instruction. -/
def Obligations.UndefinedBitsIgnored : Prop :=
  (∀ w w' : Word, w.toNat / 2 ^ 28 ≤ 12 → w'.toNat / 2 ^ 28 = w.toNat / 2 ^ 28 → w'.toNat % 2 ^ 9 = w.toNat % 2 ^ 9 →
    decode w' = decode w) ∧
  (∀ w : Word, w.toNat / 2 ^ 28 ≤ 13 → ∃ i, decode w = .instr i) ∧
  (∀ a b c a' b' c' s, exec (.halt a b c) s = exec (.halt a' b' c') s) ∧
  (∀ a a' b c s, exec (.alloc a b c) s = exec (.alloc a' b c) s) ∧
  (∀ a b a' b' c s, exec (.abandon a b c) s = exec (.abandon a' b' c) s) ∧
  (∀ a b a' b' c s, exec (.output a b c) s = exec (.output a' b' c) s) ∧
  (∀ a b a' b' c s, exec (.input a b c) s = exec (.input a' b' c) s) ∧
  (∀ a a' b c s, exec (.loadprog a b c) s = exec (.loadprog a' b c) s)

/-! ## The step -/

/-- 60_exceptions.md R160 with the fetch of 20_memory.md R55: a step is defined only while Running; it fetches from segment 0, decodes,
advances the pc by one and executes; a fetch out of range and an unknown opcode raise their fault before the advance. -/
def Obligations.StepRunsDecodedInstruction : Prop :=
  (∀ s g i, s.runState = .running → s.seg.segment 0#32 = some g → s.pc.toNat < g.len.toNat →
    decode (g.get s.pc) = .instr i → step s = exec i { s with pc := s.pc + 1 }) ∧
  (∀ s g op, s.runState = .running → s.seg.segment 0#32 = some g → s.pc.toNat < g.len.toNat →
    decode (g.get s.pc) = .unknown op → ∃ t, step s = .next t ∧ OnlyRaises .unknownOpcode s t) ∧
  (∀ s g, s.runState = .running → s.seg.segment 0#32 = some g → g.len.toNat ≤ s.pc.toNat →
    ∃ t, step s = .next t ∧ OnlyRaises .outOfBoundsIndex s t) ∧
  (∀ s t, s.runState ≠ .running → step s ≠ .next t)

/-- 60_exceptions.md R161: during the semantics the pc holds the fetched index plus 1 (it cannot wrap), Load Program overwrites it, and
every other instruction that is not waiting for its channel leaves it at that value. -/
def Obligations.OnlyLoadProgramWritesPc : Prop :=
  (∀ s g i, s.runState = .running → s.seg.segment 0#32 = some g → s.pc.toNat < g.len.toNat →
    decode (g.get s.pc) = .instr i →
    step s = exec i { s with pc := s.pc + 1 } ∧ (s.pc + 1).toNat = s.pc.toNat + 1) ∧
  (∀ a b c s t, s.runState = .running → exec (.loadprog a b c) s = .next t → t.runState = .running → t.pc = s.reg c) ∧
  (∀ i s t, (∀ a b c, i ≠ .loadprog a b c) → ¬ Waits i s → exec i s = .next t → t.pc = s.pc)

/-- 60_exceptions.md R162, R167 (derived; precision is the spec's decision D11): a step that ends Faulted changes nothing but the status
and the pc; the pc stays when the fetch or the decoding failed, and is one further when the instruction's own check failed. -/
def Obligations.FaultsArePrecise : Prop :=
  ∀ s t, step s = .next t → t.runState = .faulted →
    t.faultReason ≠ .noFault ∧ SameRegs s t ∧ SameMemory s t ∧ SameAllocator s t ∧ SameInput s t ∧ SameOutput s t ∧
    t.memCapacity = s.memCapacity ∧
    (∀ w i, s.fetch = .ok w → decode w = .instr i → t.pc = s.pc + 1) ∧
    (∀ w op, s.fetch = .ok w → decode w = .unknown op → t.pc = s.pc ∧ t.faultReason = .unknownOpcode) ∧
    (∀ f, s.fetch = .error f → t.pc = s.pc ∧ t.faultReason = .outOfBoundsIndex)

/-- 60_exceptions.md R171: no run continues from a Halted or Faulted state. -/
def Obligations.TerminalStatesNeverContinue : Prop :=
  ∀ k s t, s.runState ≠ .running → core.run (k + 1) s ≠ .next t

/-- 60_exceptions.md R163 (derived): while Running a step always answers a next state; there is no refusal. (That a waiting machine
answers its own state is the model's choice, logs 2 and 3.) -/
def Obligations.RunningStepAlwaysAnswers : Prop := ∀ s, s.runState = .running → ∃ t, step s = .next t

/-! ## Reset and program load -/

/-- 10_state.md R21, R23: every register and the pc are 0 after reset, whatever the program and whether or not it loads. -/
def Obligations.ResetRegistersAndPc : Prop :=
  (∀ cap program r, (State.init cap program).reg r = 0#32 ∧ (State.init cap program).pc = 0#32) ∧
  (∀ r, State.reset.reg r = 0#32 ∧ State.reset.pc = 0#32)

/-- 70_reset_and_hazards.md R191 with the reset table of 10_state.md R37: the words of the program in big-endian order become segment 0,
and the rest of the state has its reset value. (The values of FAULT_REASON, FREELIST, NEXT_HANDLE, PENDING_INPUT and EOF_LATCH are marked
in R37, R31 and R34 as the spec's own inference or decision; the checks of R192 and R193 that the hypotheses pass are its decisions D7
and D8.) -/
def Obligations.InitLoadsProgram : Prop :=
  ∀ cap (program : List Byte), program.length % 4 = 0 → program.length / 4 ≤ 2 ^ 32 - 1 → Fits cap (program.length / 4) →
    (State.init cap program).runState = .running ∧ (State.init cap program).faultReason = .noFault ∧
    (State.init cap program).pc = 0#32 ∧ (∀ r, (State.init cap program).reg r = 0#32) ∧
    (∃ g, (State.init cap program).seg.segment 0#32 = some g ∧ g.len.toNat = program.length / 4 ∧
      ∀ k, k < program.length / 4 → (g.get (BitVec.ofNat 32 k)).toNat =
        (program.getD (4 * k) 0#8).toNat * 2 ^ 24 + (program.getD (4 * k + 1) 0#8).toNat * 2 ^ 16 +
        (program.getD (4 * k + 2) 0#8).toNat * 2 ^ 8 + (program.getD (4 * k + 3) 0#8).toNat) ∧
    (∀ h, h ≠ 0#32 → (State.init cap program).seg.live h = false) ∧
    (State.init cap program).freelist = [] ∧ (State.init cap program).nextHandle = 1 ∧
    (State.init cap program).pendingInput = [] ∧ (State.init cap program).eofLatch = false

/-- 70_reset_and_hazards.md R192, R193 (the spec's decisions D7, D8): a program whose length is not a multiple of 4, that is longer than
2^32 - 1 words or does not fit the capacity fails with LoadError, with an empty segment 0, and no instruction runs. -/
def Obligations.InitRefusesBadPrograms : Prop :=
  ∀ cap (program : List Byte),
    program.length % 4 ≠ 0 ∨ 2 ^ 32 - 1 < program.length / 4 ∨ ¬ Fits cap (program.length / 4) →
    (State.init cap program).runState = .faulted ∧ (State.init cap program).faultReason = .loadError ∧
    (∃ g, (State.init cap program).seg.segment 0#32 = some g ∧ g.len = 0#32) ∧
    (∀ h, h ≠ 0#32 → (State.init cap program).seg.live h = false) ∧
    (State.init cap program).pc = 0#32 ∧ (∀ r, (State.init cap program).reg r = 0#32) ∧
    (State.init cap program).freelist = [] ∧ (State.init cap program).nextHandle = 1 ∧
    (State.init cap program).pendingInput = [] ∧ (State.init cap program).eofLatch = false ∧
    ∀ t, step (State.init cap program) ≠ .next t

/-- 70_reset_and_hazards.md R194 (derived): the empty program loads, and its first step raises OutOfBoundsIndex at pc 0. That
State.reset stands for it under an infinite capacity is the model's choice (logs 4, 6). -/
def Obligations.EmptyProgramFaultsAtFetch : Prop :=
  State.reset = State.init none [] ∧
  ∀ cap, (State.init cap []).runState = .running ∧
    ∃ t, step (State.init cap []) = .next t ∧ OnlyRaises .outOfBoundsIndex (State.init cap []) t ∧ t.pc = 0#32

/-! ## Invariants -/

/-- The reset state meets the invariant of a run. -/
def Obligations.ResetMeetsInvariant : Prop := State.reset.Inv

/-- `Init` of any program under any capacity meets the invariant of a run (10_state.md R32, R37). -/
def Obligations.InitMeetsInvariant : Prop := ∀ cap program, (State.init cap program).Inv

/-- Every step keeps the invariant: the canonical memory, the handle invariant of 10_state.md R30-R32, the agreement of FAULT_REASON with
RUNSTATE (R26), the capacity (20_memory.md R58, R60) and the emptied queue after the end of input. -/
def Obligations.StepKeepsInvariant : Prop := ∀ s t, s.Inv → step s = .next t → t.Inv

/-- Every state that a run reaches, from any program, under any capacity and with any behaviour of the line source and the sink, meets
the invariant (10_state.md R32: "in every state the step relation reaches from reset"). That the answers and the acknowledges arrive
between steps is the model's choice (log 16). -/
def Obligations.ReachableStatesMeetInvariant : Prop := ∀ s, Reachable s → s.Inv

/-! ## Register operations -/

/-- 40_register_ops.md R100. -/
def Obligations.CmovMovesWhenConditionHolds : Prop :=
  ∀ a b c, (∀ w, StandardWord 0 a b c w → decode w = .instr (.cmov a b c)) ∧
    ∀ s, ∃ t, exec (.cmov a b c) s = .next t ∧ (s.reg c ≠ 0#32 → t.reg a = s.reg b) ∧
      (s.reg c = 0#32 → t.reg a = s.reg a) ∧ OnlyRegChanges a s t

/-- 40_register_ops.md R101. -/
def Obligations.AddWritesSumModulo : Prop :=
  ∀ a b c, (∀ w, StandardWord 3 a b c w → decode w = .instr (.add a b c)) ∧
    ∀ s, ∃ t, exec (.add a b c) s = .next t ∧ (t.reg a).toNat = ((s.reg b).toNat + (s.reg c).toNat) % 2 ^ 32 ∧
      OnlyRegChanges a s t

/-- 40_register_ops.md R102. -/
def Obligations.MulWritesProductModulo : Prop :=
  ∀ a b c, (∀ w, StandardWord 4 a b c w → decode w = .instr (.mul a b c)) ∧
    ∀ s, ∃ t, exec (.mul a b c) s = .next t ∧ (t.reg a).toNat = ((s.reg b).toNat * (s.reg c).toNat) % 2 ^ 32 ∧
      OnlyRegChanges a s t

/-- 40_register_ops.md R103, R104. -/
def Obligations.DivWritesQuotientOrFaults : Prop :=
  ∀ a b c, (∀ w, StandardWord 5 a b c w → decode w = .instr (.div a b c)) ∧
    (∀ s, s.reg c ≠ 0#32 → ∃ t, exec (.div a b c) s = .next t ∧
      (t.reg a).toNat = (s.reg b).toNat / (s.reg c).toNat ∧ OnlyRegChanges a s t) ∧
    (∀ s, s.reg c = 0#32 → ∃ t, exec (.div a b c) s = .next t ∧ OnlyRaises .divisionByZero s t)

/-- 40_register_ops.md R105. -/
def Obligations.NandWritesEveryBit : Prop :=
  ∀ a b c, (∀ w, StandardWord 6 a b c w → decode w = .instr (.nand a b c)) ∧
    ∀ s, ∃ t, exec (.nand a b c) s = .next t ∧
      (∀ k, k < 32 → (t.reg a).getLsbD k = !((s.reg b).getLsbD k && (s.reg c).getLsbD k)) ∧ OnlyRegChanges a s t

/-- 40_register_ops.md R107. -/
def Obligations.OrthoWritesImmediate : Prop :=
  ∀ a, (∀ w n, ImmediateWord a n w → decode w = .instr (.ortho a (BitVec.ofNat 32 n)) ∧ n ≤ 0x1FFFFFF) ∧
    ∀ imm s, ∃ t, exec (.ortho a imm) s = .next t ∧ t.reg a = imm ∧ OnlyRegChanges a s t

/-- 10_state.md R20: eight independent registers, each reached by a 3-bit index, and the registers an instruction may write. -/
def Obligations.RegisterWriters : Prop :=
  (∀ (s : State) r v, (s.setReg r v).reg r = v ∧ ∀ q, q ≠ r → (s.setReg r v).reg q = s.reg q) ∧
  (∀ r, ∃ n, n < 8 ∧ Reg.ofBits (BitVec.ofNat 3 n) = r ∧ r.number = n) ∧
  (∀ i s t, exec i s = .next t → SameRegsBut (Writes i s) s t)

/-! ## Segment operations -/

/-- 20_memory.md R54, R56, R57: the access check, the word a read gives, and the one word a write changes. -/
def Obligations.MemoryReadAndWrite : Prop :=
  (∀ (m : Memory) h i v g, m.segment h = some g → i.toNat < g.len.toNat →
    m.read h i = .ok (g.get i) ∧ ∃ m', m.write h i v = .ok m' ∧ m'.read h i = .ok v ∧
      ∀ k j, ¬ (k = h ∧ j = i) → m'.read k j = m.read k j) ∧
  (∀ (m : Memory) h i v, m.segment h = none →
    m.read h i = .error .invalidHandle ∧ m.write h i v = .error .invalidHandle) ∧
  (∀ (m : Memory) h i v g, m.segment h = some g → g.len.toNat ≤ i.toNat →
    m.read h i = .error .outOfBoundsIndex ∧ m.write h i v = .error .outOfBoundsIndex)

/-- 41_segment_ops.md R120. -/
def Obligations.IndexReadsWordOrFaults : Prop :=
  ∀ a b c, (∀ w, StandardWord 1 a b c w → decode w = .instr (.index a b c)) ∧
    (∀ s g, s.seg.segment (s.reg b) = some g → (s.reg c).toNat < g.len.toNat →
      ∃ t, exec (.index a b c) s = .next t ∧ t.reg a = g.get (s.reg c) ∧ OnlyRegChanges a s t) ∧
    (∀ s, s.seg.segment (s.reg b) = none → ∃ t, exec (.index a b c) s = .next t ∧ OnlyRaises .invalidHandle s t) ∧
    (∀ s g, s.seg.segment (s.reg b) = some g → g.len.toNat ≤ (s.reg c).toNat →
      ∃ t, exec (.index a b c) s = .next t ∧ OnlyRaises .outOfBoundsIndex s t)

/-- 41_segment_ops.md R122. -/
def Obligations.AmendWritesWordOrFaults : Prop :=
  ∀ a b c, (∀ w, StandardWord 2 a b c w → decode w = .instr (.amend a b c)) ∧
    (∀ s g, s.seg.segment (s.reg a) = some g → (s.reg b).toNat < g.len.toNat →
      ∃ t, exec (.amend a b c) s = .next t ∧ t.seg.read (s.reg a) (s.reg b) = .ok (s.reg c) ∧
        OnlyMemoryChanges (fun h i => h = s.reg a ∧ i = s.reg b) s t) ∧
    (∀ s, s.seg.segment (s.reg a) = none → ∃ t, exec (.amend a b c) s = .next t ∧ OnlyRaises .invalidHandle s t) ∧
    (∀ s g, s.seg.segment (s.reg a) = some g → g.len.toNat ≤ (s.reg b).toNat →
      ∃ t, exec (.amend a b c) s = .next t ∧ OnlyRaises .outOfBoundsIndex s t)

/-- 41_segment_ops.md R124, R125 with 20_memory.md R58, where the size fits and a handle is left: the oldest retired handle, or else
NEXT_HANDLE, names a new segment of that many zero words. (That the size must fit is the spec's decision D9, that a handle must be left
D10.) -/
def Obligations.AllocCreatesZeroSegment : Prop :=
  ∀ a b c s, Fits s.memCapacity (s.seg.used + (s.reg c).toNat) → s.freelist ≠ [] ∨ s.nextHandle < 2 ^ 32 →
    ∃ t h, exec (.alloc a b c) s = .next t ∧ t.reg b = h ∧
      ((s.freelist = h :: t.freelist ∧ t.nextHandle = s.nextHandle) ∨
        (s.freelist = [] ∧ t.freelist = [] ∧ h.toNat = s.nextHandle ∧ t.nextHandle = s.nextHandle + 1)) ∧
      (∃ g, t.seg.segment h = some g ∧ g.len = s.reg c ∧
        ∀ i : Word, i.toNat < (s.reg c).toNat → t.seg.read h i = .ok 0#32) ∧
      OnlyAllocates b h s t

/-- 20_memory.md R58, the spec's decisions D9 and D10: a size that does not fit, or no handle left, raises OutOfMemory and changes nothing
else. -/
def Obligations.AllocRaisesOutOfMemory : Prop :=
  ∀ a b c s, ¬ Fits s.memCapacity (s.seg.used + (s.reg c).toNat) ∨ (s.freelist = [] ∧ 2 ^ 32 ≤ s.nextHandle) →
    ∃ t, exec (.alloc a b c) s = .next t ∧ OnlyRaises .outOfMemory s t

/-- 41_segment_ops.md R127 with 20_memory.md R59 (the name of the fault is the spec's decision D12). -/
def Obligations.AbandonRetiresHandleOrFaults : Prop :=
  ∀ a b c, (∀ w, StandardWord 9 a b c w → decode w = .instr (.abandon a b c)) ∧
    (∀ s, s.reg c ≠ 0#32 → s.seg.live (s.reg c) = true →
      ∃ t, exec (.abandon a b c) s = .next t ∧ t.seg.live (s.reg c) = false ∧
        t.freelist = s.freelist ++ [s.reg c] ∧ OnlyRetires (s.reg c) s t) ∧
    (∀ s, s.reg c = 0#32 ∨ s.seg.live (s.reg c) = false →
      ∃ t, exec (.abandon a b c) s = .next t ∧ OnlyRaises .invalidHandle s t)

/-- 41_segment_ops.md R128 (derived): once h is abandoned, every instruction that names h raises InvalidHandle. -/
def Obligations.RetiredHandleFaults : Prop :=
  ∀ a b c s t, exec (.abandon a b c) s = .next t → t.runState = .running →
    (∀ p q r, t.reg q = s.reg c → ∃ u, exec (.index p q r) t = .next u ∧ OnlyRaises .invalidHandle t u) ∧
    (∀ p q r, t.reg p = s.reg c → ∃ u, exec (.amend p q r) t = .next u ∧ OnlyRaises .invalidHandle t u) ∧
    (∀ p q r, t.reg r = s.reg c → ∃ u, exec (.abandon p q r) t = .next u ∧ OnlyRaises .invalidHandle t u) ∧
    (∀ p q r, t.reg q = s.reg c → ∃ u, exec (.loadprog p q r) t = .next u ∧ OnlyRaises .invalidHandle t u)

/-- 41_segment_ops.md R125, first property (derived): Allocation, Abandonment, Allocation gives the same handle twice, and the second
segment is all zeros, when at most one handle was retired before. (With two or more the rules R58 and R59 give another handle: log 9.) -/
def Obligations.AllocAbandonAllocReusesHandle : Prop :=
  ∀ a b c p q a' b' c' s t u v, s.freelist.length ≤ 1 →
    exec (.alloc a b c) s = .next t → t.runState = .running →
    exec (.abandon p q b) t = .next u → u.runState = .running →
    exec (.alloc a' b' c') u = .next v → v.runState = .running →
    v.reg b' = t.reg b ∧ ∀ i : Word, i.toNat < (u.reg c').toNat → v.seg.read (v.reg b') i = .ok 0#32

/-- 10_state.md R28: no step changes the length of a segment in place; only segment 0 gets a new length. -/
def Obligations.SegmentLengthsAreFixed : Prop :=
  ∀ s t h g g', s.Inv → step s = .next t → h ≠ 0#32 → s.seg.segment h = some g → t.seg.segment h = some g' →
    g'.len = g.len

/-- 10_state.md R30, R31 (derived) and 20_memory.md R51: only Allocation and Abandonment touch FREELIST, at its front and its back; only
Allocation moves NEXT_HANDLE, up by one; only Array Amendment, Allocation, Abandonment and Load Program change memory. -/
def Obligations.AllocatorAndMemoryWriters : Prop :=
  ∀ i s t, exec i s = .next t →
    ((∀ a b c, i ≠ .alloc a b c) → t.nextHandle = s.nextHandle) ∧
    (t.nextHandle = s.nextHandle ∨ t.nextHandle = s.nextHandle + 1) ∧
    ((∀ a b c, i ≠ .alloc a b c) → (∀ a b c, i ≠ .abandon a b c) → t.freelist = s.freelist) ∧
    (∀ a b c, i = .alloc a b c → t.freelist = s.freelist ∨ ∃ h, s.freelist = h :: t.freelist) ∧
    (∀ a b c, i = .abandon a b c → t.freelist = s.freelist ∨ t.freelist = s.freelist ++ [s.reg c]) ∧
    ((∀ a b c, i ≠ .amend a b c) → (∀ a b c, i ≠ .alloc a b c) → (∀ a b c, i ≠ .abandon a b c) →
      (∀ a b c, i ≠ .loadprog a b c) → SameMemory s t)

/-! ## Control and input/output -/

/-- 42_control_io.md R140: Halt halts and touches nothing else, and no step follows. -/
def Obligations.HaltEndsTheRun : Prop :=
  ∀ a b c, (∀ w, StandardWord 7 a b c w → decode w = .instr (.halt a b c)) ∧
    ∀ s, ∃ t, exec (.halt a b c) s = .next t ∧ t.runState = .halted ∧ OnlyRunStateChanges s t ∧
      ∀ u, step t ≠ .next u

/-- 42_control_io.md R142, R143 with 60_exceptions.md R177 (the fault is the spec's decision D5, the acknowledge D17). -/
def Obligations.OutputEmitsByteOrFaults : Prop :=
  ∀ a b c, (∀ w, StandardWord 10 a b c w → decode w = .instr (.output a b c)) ∧
    (∀ s, (s.reg c).toNat ≤ 255 → s.sinkAcks ≠ some 0 → ∃ t, exec (.output a b c) s = .next t ∧
      (∃ byte : Byte, byte.toNat = (s.reg c).toNat ∧ t.channel = s.channel ++ [.byteWritten byte] ∧
        t.outputTrace = s.outputTrace ++ [byte]) ∧
      OnlyOutputChanges s t) ∧
    (∀ s, 255 < (s.reg c).toNat → ∃ t, exec (.output a b c) s = .next t ∧ OnlyRaises .invalidOutputByte s t)

/-- 42_control_io.md R145 and 60_exceptions.md R177: an instruction that waits for its channel changes no state. That a step then answers
the same state is the model's choice (logs 2, 3, 15). -/
def Obligations.WaitingChangesNothing : Prop :=
  ∀ s g i, s.runState = .running → s.seg.segment 0#32 = some g → s.pc.toNat < g.len.toNat →
    decode (g.get s.pc) = .instr i → Waits i s → step s = .next s

/-- 42_control_io.md R145, 60_exceptions.md R184: the answer it waits for ends a wait; the next step then performs the waiting Input or
Output. (The arrival of the answer between two steps is the model's choice, logs 2, 3, 16.) -/
def Obligations.WaitEndsWithTheAnswer : Prop :=
  (∀ s g a b c answer, s.runState = .running → s.seg.segment 0#32 = some g → s.pc.toNat < g.len.toNat →
    decode (g.get s.pc) = .instr (.input a b c) → Waits (.input a b c) s →
    ∃ t, step (s.lineAnswered answer) = .next t ∧ t.pc = s.pc + 1 ∧ t.lineIn = [] ∧
      t.channel = s.channel ++ [.lineTaken answer]) ∧
  (∀ s g a b c, s.runState = .running → s.seg.segment 0#32 = some g → s.pc.toNat < g.len.toNat →
    decode (g.get s.pc) = .instr (.output a b c) → Waits (.output a b c) s →
    ∃ t byte, step s.sinkAcknowledges = .next t ∧ t.pc = s.pc + 1 ∧ byte.toNat = (s.reg c).toNat ∧
      t.channel = s.channel ++ [.byteWritten byte])

/-- 42_control_io.md R144 (the terminator's value is the spec's decision D13, the all-ones value at the end D6): a queued byte is delivered;
with none queued a line is taken and its first byte delivered, or the end is latched and all ones delivered; at the latched end all ones
are delivered. -/
def Obligations.InputDeliversNextByte : Prop :=
  ∀ a b c, (∀ w, StandardWord 11 a b c w → decode w = .instr (.input a b c)) ∧
    (∀ s x rest, s.pendingInput = x :: rest → ∃ t, exec (.input a b c) s = .next t ∧ (t.reg c).toNat = x.toNat ∧
      t.pendingInput = rest ∧ t.eofLatch = s.eofLatch ∧ t.lineIn = s.lineIn ∧ t.channel = s.channel ∧
      OnlyInputChanges c s t) ∧
    (∀ s bytes rest, s.pendingInput = [] → s.eofLatch = false → s.lineIn = .line bytes :: rest →
      ∃ t x, exec (.input a b c) s = .next t ∧ x :: t.pendingInput = bytes ++ [0x0A#8] ∧ (t.reg c).toNat = x.toNat ∧
        t.eofLatch = false ∧ t.lineIn = rest ∧ t.channel = s.channel ++ [.lineTaken (.line bytes)] ∧
        OnlyInputChanges c s t) ∧
    (∀ s rest, s.pendingInput = [] → s.eofLatch = false → s.lineIn = .endOfInput :: rest →
      ∃ t, exec (.input a b c) s = .next t ∧ t.reg c = 0xFFFFFFFF#32 ∧ t.pendingInput = [] ∧ t.eofLatch = true ∧
        t.lineIn = rest ∧ t.channel = s.channel ++ [.lineTaken .endOfInput] ∧ OnlyInputChanges c s t) ∧
    (∀ s, s.pendingInput = [] → s.eofLatch = true → ∃ t, exec (.input a b c) s = .next t ∧
      t.reg c = 0xFFFFFFFF#32 ∧ SameInput s t ∧ t.channel = s.channel ∧ OnlyInputChanges c s t)

/-- 42_control_io.md R144 (D13): a line of k bytes is delivered, byte by byte and then its terminator, by k + 1 Inputs, and no other line is
asked for meanwhile. -/
def Obligations.LineIsDeliveredByteByByte : Prop :=
  ∀ c s bytes rest, s.pendingInput = [] → s.eofLatch = false → s.lineIn = .line bytes :: rest →
    ∃ t, inputs c (bytes.length + 1) s = some ((bytes ++ [0x0A#8]).map (fun x => x.setWidth 32), t) ∧
      t.pendingInput = [] ∧ t.eofLatch = false ∧ t.lineIn = rest ∧
      t.channel = s.channel ++ [.lineTaken (.line bytes)]

/-- 42_control_io.md R144 and 10_state.md R34 (D6): after the end of input every Input delivers all ones, and the line source is never asked
again. -/
def Obligations.EndOfInputIsForever : Prop :=
  ∀ n c s, s.pendingInput = [] → s.eofLatch = true →
    ∃ t, inputs c n s = some (List.replicate n 0xFFFFFFFF#32, t) ∧ SameInput s t ∧ t.channel = s.channel

/-- 10_state.md R34: no step clears EOF_LATCH, and while it is set no step asks the line source. -/
def Obligations.EofLatchIsNeverCleared : Prop :=
  ∀ s t, step s = .next t → s.eofLatch = true → t.eofLatch = true ∧ t.lineIn = s.lineIn

/-- 42_control_io.md R143, 60_exceptions.md R176, R177: the trace only grows, by at most one transaction a step; a byte is written by Output
alone and a line taken by Input alone. That the trace stands in State is the model's choice (log 8). -/
def Obligations.ChannelOrderIsProgramOrder : Prop :=
  (∀ s t, step s = .next t → t.channel = s.channel ∨ ∃ e, t.channel = s.channel ++ [e]) ∧
  (∀ i s t byte, exec i s = .next t → t.channel = s.channel ++ [.byteWritten byte] →
    ∃ a b c, i = .output a b c ∧ (s.reg c).toNat = byte.toNat) ∧
  (∀ i s t answer, exec i s = .next t → t.channel = s.channel ++ [.lineTaken answer] →
    (∃ a b c, i = .input a b c) ∧ s.lineIn = answer :: t.lineIn)

/-- 60_exceptions.md R170 (derived), R176: what the line source would answer cannot be seen by an instruction that does not ask. -/
def Obligations.LineSourceSeenOnlyWhenAsked : Prop :=
  ∀ i s t answers, (∀ a b c, i = .input a b c → s.pendingInput ≠ [] ∨ s.eofLatch = true) → exec i s = .next t →
    exec i { s with lineIn := answers } = .next { t with lineIn := answers }

/-- 42_control_io.md R146 with 20_memory.md R60 (InvalidHandle is the spec's decision D12, OutOfMemory D9): with handle 0 a plain jump; else
segment 0 becomes a copy of the segment and the pc is x[C]; a fault leaves both. -/
def Obligations.LoadProgramCopiesAndJumps : Prop :=
  ∀ a b c, (∀ w, StandardWord 12 a b c w → decode w = .instr (.loadprog a b c)) ∧
    (∀ s, s.reg b = 0#32 → ∃ t, exec (.loadprog a b c) s = .next t ∧ t.pc = s.reg c ∧
      OnlyJumps (fun _ _ => False) s t) ∧
    (∀ s g, s.reg b ≠ 0#32 → s.seg.segment (s.reg b) = some g →
      Fits s.memCapacity (s.seg.used - s.seg.lenOf 0#32 + g.len.toNat) →
      ∃ t, exec (.loadprog a b c) s = .next t ∧ t.pc = s.reg c ∧
        (∀ i, t.seg.read 0#32 i = s.seg.read (s.reg b) i) ∧ OnlyJumps (fun h _ => h = 0#32) s t) ∧
    (∀ s, s.reg b ≠ 0#32 → s.seg.segment (s.reg b) = none →
      ∃ t, exec (.loadprog a b c) s = .next t ∧ OnlyRaises .invalidHandle s t) ∧
    (∀ s g, s.reg b ≠ 0#32 → s.seg.segment (s.reg b) = some g →
      ¬ Fits s.memCapacity (s.seg.used - s.seg.lenOf 0#32 + g.len.toNat) →
      ∃ t, exec (.loadprog a b c) s = .next t ∧ OnlyRaises .outOfMemory s t)

/-- 20_memory.md R69 (derived): the next fetch sees the word that Array Amendment wrote to segment 0 at the pc, and the new program and pc of
Load Program. -/
def Obligations.NextFetchSeesTheWrite : Prop :=
  (∀ a b c s t, exec (.amend a b c) s = .next t → t.runState = .running → s.reg a = 0#32 → s.reg b = s.pc →
    t.fetch = .ok (s.reg c)) ∧
  (∀ a b c s t, exec (.loadprog a b c) s = .next t → t.runState = .running → s.reg b ≠ 0#32 →
    t.fetch = s.seg.read (s.reg b) (s.reg c))

/-! ## The host -/

/-- 10_state.md R25, R26 (the numbers are the spec's decisions D4, D3) and 60_exceptions.md R179: what HOST-STATUS shows. -/
def Obligations.HostStatusShowsCodes : Prop :=
  (∀ s : State, s.hostStatus.regs = s.regs ∧ s.hostStatus.pc = s.pc ∧ s.hostStatus.seg = s.seg ∧
    (s.hostStatus.runState = 0#2 ↔ s.runState = .running) ∧ (s.hostStatus.runState = 1#2 ↔ s.runState = .halted) ∧
    (s.hostStatus.runState = 2#2 ↔ s.runState = .faulted) ∧ s.hostStatus.runState ≠ 3#2 ∧
    (∀ f : FaultReason, s.hostStatus.faultReason = f.code ↔ s.faultReason = f)) ∧
  FaultReason.noFault.code = 0#3 ∧ FaultReason.loadError.code = 1#3 ∧ FaultReason.unknownOpcode.code = 2#3 ∧
  FaultReason.divisionByZero.code = 3#3 ∧ FaultReason.invalidHandle.code = 4#3 ∧ FaultReason.outOfBoundsIndex.code = 5#3 ∧
  FaultReason.invalidOutputByte.code = 6#3 ∧ FaultReason.outOfMemory.code = 7#3
end

