-- ==== Sys2Proof/Laws/PerInstr.lean ====
section
/-! SUPPORT. Statements about every instruction, one lemma for each constructor. Family TableMatch: the encoding of a well-formed
instruction meets its row of spec/opcode_table.json, whose mask is 0xF000_0000 and whose match value is the opcode in bits 31-28. -/

namespace Sys2Proof.Laws.TableMatch

/-- `encode i` under the table's mask is the match value of the row with `i`'s opcode (30_encoding.md R84). -/
def Statement (i : Instr) : Prop := i.wellFormed = true → (encode i).toNat / 2 ^ 28 = i.opcode

/-- A register number fits its 3-bit field. -/
theorem number_lt (r : Reg) : r.number < 8 := by cases r <;> decide

theorem standard (op : Nat) (a b c : Reg) (h : op < 16) : (encodeStandard op a b c).toNat / 2 ^ 28 = op := by
  have ha := number_lt a
  have hb := number_lt b
  have hc := number_lt c
  rw [encodeStandard, BitVec.toNat_ofNat]
  omega

theorem cmov (a b c : Reg) : Statement (.cmov a b c) := fun _ => standard 0 a b c (by decide)
theorem index (a b c : Reg) : Statement (.index a b c) := fun _ => standard 1 a b c (by decide)
theorem amend (a b c : Reg) : Statement (.amend a b c) := fun _ => standard 2 a b c (by decide)
theorem add (a b c : Reg) : Statement (.add a b c) := fun _ => standard 3 a b c (by decide)
theorem mul (a b c : Reg) : Statement (.mul a b c) := fun _ => standard 4 a b c (by decide)
theorem div (a b c : Reg) : Statement (.div a b c) := fun _ => standard 5 a b c (by decide)
theorem nand (a b c : Reg) : Statement (.nand a b c) := fun _ => standard 6 a b c (by decide)
theorem halt (a b c : Reg) : Statement (.halt a b c) := fun _ => standard 7 a b c (by decide)
theorem alloc (a b c : Reg) : Statement (.alloc a b c) := fun _ => standard 8 a b c (by decide)
theorem abandon (a b c : Reg) : Statement (.abandon a b c) := fun _ => standard 9 a b c (by decide)
theorem output (a b c : Reg) : Statement (.output a b c) := fun _ => standard 10 a b c (by decide)
theorem input (a b c : Reg) : Statement (.input a b c) := fun _ => standard 11 a b c (by decide)
theorem loadprog (a b c : Reg) : Statement (.loadprog a b c) := fun _ => standard 12 a b c (by decide)

theorem ortho (a : Reg) (imm : Word) : Statement (.ortho a imm) := by
  intro h
  have ha := number_lt a
  have hi : imm.toNat ≤ 0x1FFFFFF := of_decide_eq_true h
  show (encodeImmediate a imm).toNat / 2 ^ 28 = 13
  rw [encodeImmediate, BitVec.toNat_ofNat]
  omega

end Sys2Proof.Laws.TableMatch
end

