-- ==== Sys2Proof/Laws/Decode.lean ====
section
/-! SUPPORT. What each field of the decoder is as a number, and that a register is known by its number. -/

namespace Sys2Proof

theorem Reg.number_inj {a b : Reg} (h : a.number = b.number) : a = b := by
  cases a <;> cases b <;> first | rfl | cases h

theorem Reg.number_ofBits (b : BitVec 3) : (Reg.ofBits b).number = b.toNat := by
  revert b; decide

theorem opcodeField_toNat (w : Word) : (opcodeField w).toNat = w.toNat / 2 ^ 28 := by
  have := w.isLt
  simp only [opcodeField, BitVec.extractLsb_toNat, Nat.shiftRight_eq_div_pow]
  omega

theorem fieldA_number (w : Word) : (fieldA w).number = w.toNat / 2 ^ 6 % 8 := by
  simp only [fieldA, Reg.number_ofBits, BitVec.extractLsb_toNat, Nat.shiftRight_eq_div_pow]

theorem fieldB_number (w : Word) : (fieldB w).number = w.toNat / 2 ^ 3 % 8 := by
  simp only [fieldB, Reg.number_ofBits, BitVec.extractLsb_toNat, Nat.shiftRight_eq_div_pow]

theorem fieldC_number (w : Word) : (fieldC w).number = w.toNat % 8 := by
  simp only [fieldC, Reg.number_ofBits, BitVec.extractLsb_toNat, Nat.shiftRight_eq_div_pow]
  omega

theorem fieldImmReg_number (w : Word) : (fieldImmReg w).number = w.toNat / 2 ^ 25 % 8 := by
  simp only [fieldImmReg, Reg.number_ofBits, BitVec.extractLsb_toNat, Nat.shiftRight_eq_div_pow]

theorem fieldImm_toNat (w : Word) : (fieldImm w).toNat = w.toNat % 2 ^ 25 := by
  simp only [fieldImm, BitVec.toNat_setWidth, BitVec.extractLsb_toNat, Nat.shiftRight_eq_div_pow]
  omega

theorem wellFormed_ortho_iff (a : Reg) (imm : Word) : (Instr.ortho a imm).wellFormed = true ↔ imm.toNat < 2 ^ 25 := by
  rw [Instr.wellFormed, immediateFits, decide_eq_true_iff, Config.maxImmediate]
  omega

/-- The opcode and the fields of a standard-layout word. -/
theorem Machine.StandardWord.fields {op : Nat} {a b c : Reg} {w : Word} (h : Machine.StandardWord op a b c w) :
    (opcodeField w).toNat = op ∧ fieldA w = a ∧ fieldB w = b ∧ fieldC w = c :=
  ⟨(opcodeField_toNat w).trans h.1, Reg.number_inj ((fieldA_number w).trans h.2.1),
    Reg.number_inj ((fieldB_number w).trans h.2.2.1), Reg.number_inj ((fieldC_number w).trans h.2.2.2)⟩

/-- The opcode and the fields of an immediate-layout word. -/
theorem Machine.ImmediateWord.fields {a : Reg} {imm : Nat} {w : Word} (h : Machine.ImmediateWord a imm w) :
    (opcodeField w).toNat = 13 ∧ fieldImmReg w = a ∧ (fieldImm w).toNat = imm :=
  ⟨(opcodeField_toNat w).trans h.1, Reg.number_inj ((fieldImmReg_number w).trans h.2.1),
    (fieldImm_toNat w).trans h.2.2⟩

/-- The encoder writes a standard-layout word. -/
theorem standardWord_encodeStandard (op : Nat) (a b c : Reg) (h : op < 16) :
    Machine.StandardWord op a b c (encodeStandard op a b c) := by
  have ha := Laws.TableMatch.number_lt a
  have hb := Laws.TableMatch.number_lt b
  have hc := Laws.TableMatch.number_lt c
  simp only [Machine.StandardWord, encodeStandard, BitVec.toNat_ofNat]
  omega

/-- The encoder writes an immediate-layout word. -/
theorem immediateWord_encodeImmediate (a : Reg) (imm : Word) (h : imm.toNat < 2 ^ 25) :
    Machine.ImmediateWord a imm.toNat (encodeImmediate a imm) := by
  have ha := Laws.TableMatch.number_lt a
  simp only [Machine.ImmediateWord, encodeImmediate, BitVec.toNat_ofNat]
  omega

end Sys2Proof
end

