-- ==== Sys2Proof/Laws/Memory.lean ====
section
/-! SUPPORT. The laws of association lists, segments and the segment map: what a read gives after an update, and that every
update keeps the canonical form. -/

namespace Sys2Proof.Machine

/-! ### Association lists -/

section assoc
variable {α : Type}

@[simp] theorem Assoc.find_nil (k : Nat) : Assoc.find k ([] : List (Nat × α)) = none := rfl

theorem Assoc.find_insert_same (k : Nat) (v : α) (l : List (Nat × α)) :
    Assoc.find k (Assoc.insert k v l) = some v := by
  induction l with
  | nil => simp [Assoc.insert, Assoc.find]
  | cons p l ih =>
    obtain ⟨j, u⟩ := p
    simp only [Assoc.insert]
    split
    · simp [Assoc.find]
    · split
      · simp [Assoc.find]
      · simp [Assoc.find, *]

theorem Assoc.find_insert_other {k j : Nat} (v : α) (l : List (Nat × α)) (h : j ≠ k) :
    Assoc.find j (Assoc.insert k v l) = Assoc.find j l := by
  induction l with
  | nil => simp [Assoc.insert, Assoc.find, h]
  | cons p l ih =>
    obtain ⟨i, u⟩ := p
    simp only [Assoc.insert]
    split
    · simp [Assoc.find, h]
    · split
      · next h' => subst h'; simp [Assoc.find, h]
      · simp [Assoc.find, ih]

theorem Assoc.find_erase_same (k : Nat) (l : List (Nat × α)) : Assoc.find k (Assoc.erase k l) = none := by
  induction l with
  | nil => rfl
  | cons p l ih =>
    obtain ⟨i, u⟩ := p
    simp only [Assoc.erase]
    split
    · exact ih
    · simp [Assoc.find, *]

theorem Assoc.find_erase_other {k j : Nat} (l : List (Nat × α)) (h : j ≠ k) :
    Assoc.find j (Assoc.erase k l) = Assoc.find j l := by
  induction l with
  | nil => rfl
  | cons p l ih =>
    obtain ⟨i, u⟩ := p
    simp only [Assoc.erase]
    split
    · next h' => subst h'; simp [Assoc.find, h, ih]
    · simp [Assoc.find, ih]

theorem Assoc.mem_of_find {k : Nat} {v : α} {l : List (Nat × α)} (h : Assoc.find k l = some v) : (k, v) ∈ l := by
  induction l with
  | nil => simp at h
  | cons p l ih =>
    obtain ⟨i, u⟩ := p
    simp only [Assoc.find] at h
    split at h
    · next hk => cases h; simp [hk]
    · exact List.mem_cons_of_mem _ (ih h)

theorem Assoc.mem_insert {k : Nat} {v : α} {l : List (Nat × α)} {p : Nat × α} (h : p ∈ Assoc.insert k v l) :
    p = (k, v) ∨ p ∈ l := by
  induction l with
  | nil => exact .inl (by simpa [Assoc.insert] using h)
  | cons q l ih =>
    obtain ⟨i, u⟩ := q
    simp only [Assoc.insert] at h
    split at h
    · simpa using h
    · split at h
      · rcases List.mem_cons.1 h with h | h
        · exact .inl h
        · exact .inr (List.mem_cons_of_mem _ h)
      · rcases List.mem_cons.1 h with h | h
        · exact .inr (h ▸ List.mem_cons_self)
        · exact (ih h).imp_right (List.mem_cons_of_mem _)

theorem Assoc.mem_erase {k : Nat} {l : List (Nat × α)} {p : Nat × α} (h : p ∈ Assoc.erase k l) : p ∈ l := by
  induction l with
  | nil => simp [Assoc.erase] at h
  | cons q l ih =>
    obtain ⟨i, u⟩ := q
    simp only [Assoc.erase] at h
    split at h
    · exact List.mem_cons_of_mem _ (ih h)
    · rcases List.mem_cons.1 h with h | h
      · exact h ▸ List.mem_cons_self
      · exact List.mem_cons_of_mem _ (ih h)

theorem Assoc.sorted_insert (k : Nat) (v : α) {l : List (Nat × α)} (h : Assoc.Sorted l) :
    Assoc.Sorted (Assoc.insert k v l) := by
  induction l with
  | nil => simp [Assoc.insert]
  | cons p l ih =>
    obtain ⟨i, u⟩ := p
    obtain ⟨hi, hl⟩ := List.pairwise_cons.1 h
    simp only [Assoc.insert]
    split
    · next hk =>
      refine List.pairwise_cons.2 ⟨fun q hq => ?_, h⟩
      rcases List.mem_cons.1 hq with rfl | hq
      · exact hk
      · exact Nat.lt_trans hk (hi q hq)
    · split
      · next hk => subst hk; exact List.pairwise_cons.2 ⟨hi, hl⟩
      · refine List.pairwise_cons.2 ⟨fun q hq => ?_, ih hl⟩
        rcases Assoc.mem_insert hq with rfl | hq
        · simp only; omega
        · exact hi q hq

theorem Assoc.sorted_erase (k : Nat) {l : List (Nat × α)} (h : Assoc.Sorted l) : Assoc.Sorted (Assoc.erase k l) := by
  induction l with
  | nil => exact h
  | cons p l ih =>
    obtain ⟨i, u⟩ := p
    obtain ⟨hi, hl⟩ := List.pairwise_cons.1 h
    simp only [Assoc.erase]
    split
    · exact ih hl
    · exact List.pairwise_cons.2 ⟨fun q hq => hi q (Assoc.mem_erase hq), ih hl⟩

/-- Below the first key of an ascending list nothing is found. -/
theorem Assoc.find_of_below {k : Nat} {l : List (Nat × α)} (h : ∀ p ∈ l, k < p.1) : Assoc.find k l = none := by
  induction l with
  | nil => rfl
  | cons p l ih =>
    obtain ⟨i, u⟩ := p
    have hi : k < i := h (i, u) List.mem_cons_self
    rw [Assoc.find, if_neg (Nat.ne_of_lt hi)]
    exact ih fun q hq => h q (List.mem_cons_of_mem _ hq)

end assoc

/-! ### Segments -/

theorem Segment.wf_iff (g : Segment) :
    g.wf = true ↔ Assoc.Sorted g.cells ∧ ∀ p ∈ g.cells, p.1 < g.len.toNat ∧ p.2 ≠ 0#32 := by
  simp [Segment.wf]

@[simp] theorem Segment.len_zeros (n : Word) : (Segment.zeros n).len = n := rfl

@[simp] theorem Segment.get_zeros (n i : Word) : (Segment.zeros n).get i = 0#32 := rfl

@[simp] theorem Segment.len_set (g : Segment) (i v : Word) : (g.set i v).len = g.len := rfl

theorem Segment.get_set_same (g : Segment) (i v : Word) : (g.set i v).get i = v := by
  by_cases h : v = 0#32
  · simp [Segment.get, Segment.set, h, Assoc.find_erase_same]
  · simp only [Segment.get, Segment.set, if_neg h, Assoc.find_insert_same, Option.getD_some]

theorem Segment.get_set_other (g : Segment) {i j : Word} (v : Word) (h : j ≠ i) : (g.set i v).get j = g.get j := by
  have hn : j.toNat ≠ i.toNat := fun e => h (BitVec.eq_of_toNat_eq e)
  by_cases hv : v = 0#32
  · simp [Segment.get, Segment.set, hv, Assoc.find_erase_other _ hn]
  · simp only [Segment.get, Segment.set, if_neg hv, Assoc.find_insert_other _ _ hn]

theorem Segment.wf_zeros (n : Word) : (Segment.zeros n).wf = true := rfl

theorem Segment.wf_set {g : Segment} {i : Word} (v : Word) (h : g.wf = true) (hi : i.toNat < g.len.toNat) :
    (g.set i v).wf = true := by
  rw [Segment.wf_iff] at h ⊢
  simp only [Segment.set]
  split
  · exact ⟨Assoc.sorted_erase _ h.1, fun p hp => h.2 p (Assoc.mem_erase hp)⟩
  · next hv =>
    refine ⟨Assoc.sorted_insert _ _ h.1, fun p hp => ?_⟩
    rcases Assoc.mem_insert hp with rfl | hp
    · exact ⟨hi, hv⟩
    · exact h.2 p hp

theorem Segment.cellsFrom_spec (ws : List Word) (k : Nat) :
    Assoc.Sorted (Segment.cellsFrom k ws) ∧
      ∀ p ∈ Segment.cellsFrom k ws, k ≤ p.1 ∧ p.1 < k + ws.length ∧ p.2 ≠ 0#32 := by
  induction ws generalizing k with
  | nil => simp [Segment.cellsFrom]
  | cons v ws ih =>
    obtain ⟨hs, hm⟩ := ih (k + 1)
    simp only [Segment.cellsFrom]
    split
    · exact ⟨hs, fun p hp => by have := hm p hp; simp only [List.length_cons]; refine ⟨?_, ?_, this.2.2⟩ <;> omega⟩
    · next hv =>
      refine ⟨List.pairwise_cons.2 ⟨fun q hq => (hm q hq).1, hs⟩, fun p hp => ?_⟩
      rcases List.mem_cons.1 hp with rfl | hp
      · exact ⟨Nat.le_refl _, by simp, hv⟩
      · have := hm p hp
        simp only [List.length_cons]
        refine ⟨?_, ?_, this.2.2⟩ <;> omega

theorem Segment.find_cellsFrom (ws : List Word) (k i : Nat) :
    (Assoc.find (k + i) (Segment.cellsFrom k ws)).getD 0#32 = ws.getD i 0#32 := by
  induction ws generalizing k i with
  | nil => simp [Segment.cellsFrom]
  | cons v ws ih =>
    simp only [Segment.cellsFrom]
    cases i with
    | zero =>
      have below : Assoc.find k (Segment.cellsFrom (k + 1) ws) = none :=
        Assoc.find_of_below fun p hp => ((Segment.cellsFrom_spec ws (k + 1)).2 p hp).1
      split
      · next hv => simp [below, hv]
      · simp [Assoc.find]
    | succ i =>
      have e : k + (i + 1) = (k + 1) + i := by omega
      split
      · simpa [e] using ih (k + 1) i
      · rw [Assoc.find, if_neg (by omega), e]
        simpa using ih (k + 1) i

theorem Segment.get_ofWords (ws : List Word) (i : Word) : (Segment.ofWords ws).get i = ws.getD i.toNat 0#32 := by
  simpa [Segment.get, Segment.ofWords] using Segment.find_cellsFrom ws 0 i.toNat

theorem Segment.len_ofWords {ws : List Word} (h : ws.length < 2 ^ 32) : (Segment.ofWords ws).len.toNat = ws.length := by
  simpa [Segment.ofWords] using h

theorem Segment.wf_ofWords {ws : List Word} (h : ws.length < 2 ^ 32) : (Segment.ofWords ws).wf = true := by
  obtain ⟨hs, hm⟩ := Segment.cellsFrom_spec ws 0
  rw [Segment.wf_iff, Segment.len_ofWords h]
  exact ⟨hs, fun p hp => by simpa using (hm p hp).2⟩

/-! ### The segment map -/

theorem Memory.wf_iff (m : Memory) :
    m.wf = true ↔ Assoc.Sorted m ∧ ∀ p ∈ m, p.1 < Config.handleSpace ∧ p.2.wf = true := by
  simp [Memory.wf]

theorem Memory.segment_put_same (m : Memory) (h : Word) (g : Segment) : (m.put h g).segment h = some g :=
  Assoc.find_insert_same _ _ _

theorem Memory.segment_put_other (m : Memory) {h k : Word} (g : Segment) (hk : k ≠ h) :
    (m.put h g).segment k = m.segment k :=
  Assoc.find_insert_other _ _ fun e => hk (BitVec.eq_of_toNat_eq e)

theorem Memory.segment_remove_same (m : Memory) (h : Word) : (m.remove h).segment h = none :=
  Assoc.find_erase_same _ _

theorem Memory.segment_remove_other (m : Memory) {h k : Word} (hk : k ≠ h) : (m.remove h).segment k = m.segment k :=
  Assoc.find_erase_other _ fun e => hk (BitVec.eq_of_toNat_eq e)

theorem Memory.live_iff (m : Memory) (h : Word) : m.live h = true ↔ ∃ g, m.segment h = some g :=
  Option.isSome_iff_exists

theorem Memory.live_eq_false_iff (m : Memory) (h : Word) : m.live h = false ↔ m.segment h = none := by
  simp [Memory.live]

theorem Memory.live_put (m : Memory) (h k : Word) (g : Segment) :
    (m.put h g).live k = true ↔ k = h ∨ m.live k = true := by
  by_cases hk : k = h
  · simp [hk, Memory.live, Memory.segment_put_same]
  · simp [hk, Memory.live, Memory.segment_put_other m g hk]

theorem Memory.live_remove (m : Memory) (h k : Word) :
    (m.remove h).live k = true ↔ k ≠ h ∧ m.live k = true := by
  by_cases hk : k = h
  · simp [hk, Memory.live, Memory.segment_remove_same]
  · simp [hk, Memory.live, Memory.segment_remove_other m hk]

theorem Memory.wf_segment {m : Memory} (hm : m.wf = true) {h : Word} {g : Segment} (hg : m.segment h = some g) :
    g.wf = true :=
  (((Memory.wf_iff m).1 hm).2 _ (Assoc.mem_of_find hg)).2

/-- Putting a canonical segment keeps the canonical form. -/
theorem Memory.wf_put {m : Memory} (h : Word) {g : Segment} (hm : m.wf = true) (hg : g.wf = true) :
    (m.put h g).wf = true := by
  rw [Memory.wf_iff] at hm ⊢
  refine ⟨Assoc.sorted_insert _ _ hm.1, fun p hp => ?_⟩
  rcases Assoc.mem_insert hp with rfl | hp
  · exact ⟨h.isLt, hg⟩
  · exact hm.2 p hp

/-- Removing a handle keeps the canonical form. -/
theorem Memory.wf_remove {m : Memory} (h : Word) (hm : m.wf = true) : (m.remove h).wf = true := by
  rw [Memory.wf_iff] at hm ⊢
  exact ⟨Assoc.sorted_erase _ hm.1, fun p hp => hm.2 p (Assoc.mem_erase hp)⟩

/-- The memory of the reset state has the canonical form. -/
theorem Memory.wf_reset : State.reset.seg.wf = true := by decide

/-! ### The words in use -/

theorem Memory.lenOf_eq {m : Memory} {h : Word} {g : Segment} (hg : m.segment h = some g) : m.lenOf h = g.len.toNat := by
  simp [Memory.lenOf, hg]

theorem Memory.used_insert_new {k : Nat} {g : Segment} {m : Memory} (h : Assoc.find k m = none) :
    Memory.used (Assoc.insert k g m) = g.len.toNat + Memory.used m := by
  induction m with
  | nil => rfl
  | cons p m ih =>
    obtain ⟨j, u⟩ := p
    simp only [Assoc.find] at h
    split at h
    · cases h
    · next hk =>
      simp only [Assoc.insert]
      split
      · rfl
      · simp only [Memory.used, ih h]; omega

theorem Memory.used_insert_old {k : Nat} {g old : Segment} {m : Memory} (h : Assoc.find k m = some old)
    (hs : Assoc.Sorted m) : Memory.used (Assoc.insert k g m) + old.len.toNat = g.len.toNat + Memory.used m := by
  induction m with
  | nil => simp at h
  | cons p m ih =>
    obtain ⟨j, u⟩ := p
    obtain ⟨hj, hs⟩ := List.pairwise_cons.1 hs
    simp only [Assoc.find] at h
    split at h
    · next hk => cases h; subst hk; simp [Assoc.insert, Memory.used]; omega
    · next hk =>
      have lt : j < k := hj _ (Assoc.mem_of_find h)
      simp only [Assoc.insert, if_neg hk, if_neg (Nat.lt_asymm lt), Memory.used]
      have := ih h hs
      omega

theorem Memory.used_remove_le (m : Memory) (h : Word) : (m.remove h).used ≤ m.used := by
  unfold Memory.remove
  induction m with
  | nil => exact Nat.le_refl _
  | cons p m ih =>
    obtain ⟨j, u⟩ := p
    simp only [Assoc.erase]
    split <;> simp only [Memory.used] <;> omega

/-- A segment under a handle that was not live adds its length. -/
theorem Memory.used_put_new {m : Memory} {h : Word} (g : Segment) (hh : m.segment h = none) :
    (m.put h g).used = g.len.toNat + m.used :=
  Memory.used_insert_new hh

/-- A segment under a live handle replaces the old one's length. -/
theorem Memory.used_put_old {m : Memory} {h : Word} (g : Segment) {old : Segment} (hh : m.segment h = some old)
    (hm : m.wf = true) : (m.put h g).used + old.len.toNat = g.len.toNat + m.used :=
  Memory.used_insert_old hh ((Memory.wf_iff m).1 hm).1

end Sys2Proof.Machine
end

