-- ==== Sys2Proof/Laws/State.lean ====
section
/-! SUPPORT. One lemma for each field of State and each update that the operations make, all true by rfl, so that no later proof
unfolds an update; and the two laws of the register file. -/

namespace Sys2Proof.Machine

theorem Regs.get_set_same (x : Regs) (r : Reg) (v : Word) : (x.set r v).get r = v := by cases r <;> rfl

theorem Regs.get_set_other (x : Regs) {r q : Reg} (v : Word) (h : q ≠ r) : (x.set r v).get q = x.get q := by
  cases r <;> cases q <;> first | rfl | exact absurd rfl h

@[simp] theorem State.reg_setReg_same (s : State) (r : Reg) (v : Word) : (s.setReg r v).reg r = v :=
  Regs.get_set_same s.regs r v

theorem State.reg_setReg_other (s : State) {r q : Reg} (v : Word) (h : q ≠ r) : (s.setReg r v).reg q = s.reg q :=
  Regs.get_set_other s.regs v h

section setReg
variable (s : State) (r : Reg) (v : Word)

@[simp] theorem State.setReg_pc : (s.setReg r v).pc = s.pc := rfl
@[simp] theorem State.setReg_runState : (s.setReg r v).runState = s.runState := rfl
@[simp] theorem State.setReg_faultReason : (s.setReg r v).faultReason = s.faultReason := rfl
@[simp] theorem State.setReg_seg : (s.setReg r v).seg = s.seg := rfl
@[simp] theorem State.setReg_freelist : (s.setReg r v).freelist = s.freelist := rfl
@[simp] theorem State.setReg_nextHandle : (s.setReg r v).nextHandle = s.nextHandle := rfl
@[simp] theorem State.setReg_pendingInput : (s.setReg r v).pendingInput = s.pendingInput := rfl
@[simp] theorem State.setReg_eofLatch : (s.setReg r v).eofLatch = s.eofLatch := rfl
@[simp] theorem State.setReg_memCapacity : (s.setReg r v).memCapacity = s.memCapacity := rfl
@[simp] theorem State.setReg_lineIn : (s.setReg r v).lineIn = s.lineIn := rfl
@[simp] theorem State.setReg_sinkAcks : (s.setReg r v).sinkAcks = s.sinkAcks := rfl
@[simp] theorem State.setReg_channel : (s.setReg r v).channel = s.channel := rfl

end setReg

section advance
variable (s : State)

@[simp] theorem State.advance_pc : s.advance.pc = s.pc + 1 := rfl
@[simp] theorem State.advance_regs : s.advance.regs = s.regs := rfl
@[simp] theorem State.advance_reg (r : Reg) : s.advance.reg r = s.reg r := rfl
@[simp] theorem State.advance_runState : s.advance.runState = s.runState := rfl
@[simp] theorem State.advance_faultReason : s.advance.faultReason = s.faultReason := rfl
@[simp] theorem State.advance_seg : s.advance.seg = s.seg := rfl
@[simp] theorem State.advance_freelist : s.advance.freelist = s.freelist := rfl
@[simp] theorem State.advance_nextHandle : s.advance.nextHandle = s.nextHandle := rfl
@[simp] theorem State.advance_pendingInput : s.advance.pendingInput = s.pendingInput := rfl
@[simp] theorem State.advance_eofLatch : s.advance.eofLatch = s.eofLatch := rfl
@[simp] theorem State.advance_memCapacity : s.advance.memCapacity = s.memCapacity := rfl
@[simp] theorem State.advance_lineIn : s.advance.lineIn = s.lineIn := rfl
@[simp] theorem State.advance_sinkAcks : s.advance.sinkAcks = s.sinkAcks := rfl
@[simp] theorem State.advance_channel : s.advance.channel = s.channel := rfl

end advance

/-! An update of a field other than `regs` leaves every register alone. -/
section otherUpdates
variable (s : State) (r : Reg)

@[simp] theorem State.reg_with_pc (p : Word) : ({ s with pc := p } : State).reg r = s.reg r := rfl
@[simp] theorem State.reg_with_runState (x : RunState) : ({ s with runState := x } : State).reg r = s.reg r := rfl
@[simp] theorem State.reg_with_fault (x : RunState) (f : FaultReason) :
    ({ s with runState := x, faultReason := f } : State).reg r = s.reg r := rfl
@[simp] theorem State.reg_with_seg (m : Memory) : ({ s with seg := m } : State).reg r = s.reg r := rfl
@[simp] theorem State.reg_with_pendingInput (q : List Byte) : ({ s with pendingInput := q } : State).reg r = s.reg r := rfl

end otherUpdates

end Sys2Proof.Machine
end

