-- ==== Sys2Proof/Laws/Ops.lean ====
section
/-! SUPPORT. One lemma for each shared operation that says once everything it can do. -/

namespace Sys2Proof.Machine

/-! ### The access check, reads and writes -/

theorem Memory.check_eq_ok {m : Memory} {h i : Word} {g : Segment} :
    m.check h i = .ok g ↔ m.segment h = some g ∧ i.toNat < g.len.toNat := by
  unfold Memory.check
  cases e : m.segment h with
  | none => simp
  | some g' =>
    by_cases hi : i.toNat < g'.len.toNat
    · simp only [hi, if_true, Except.ok.injEq, Option.some.injEq]
      exact ⟨fun e => e ▸ ⟨rfl, hi⟩, fun e => e.1⟩
    · simp only [hi, if_false, reduceCtorEq, Option.some.injEq, false_iff]
      rintro ⟨rfl, h'⟩
      exact hi h'

theorem Memory.check_eq_error {m : Memory} {h i : Word} {f : FaultReason} :
    m.check h i = .error f ↔
      (m.segment h = none ∧ f = .invalidHandle) ∨
        ∃ g, m.segment h = some g ∧ g.len.toNat ≤ i.toNat ∧ f = .outOfBoundsIndex := by
  unfold Memory.check
  cases e : m.segment h with
  | none => simp [eq_comm]
  | some g =>
    by_cases hi : i.toNat < g.len.toNat
    · simp [hi]
    · simp [hi, eq_comm, Nat.not_lt.1 hi]

/-- A read gives the word of a live segment at an index below its length. -/
theorem Memory.read_eq_ok {m : Memory} {h i v : Word} :
    m.read h i = .ok v ↔ ∃ g, m.segment h = some g ∧ i.toNat < g.len.toNat ∧ v = g.get i := by
  unfold Memory.read
  cases e : m.check h i with
  | error f =>
    simp only [reduceCtorEq, false_iff]
    rintro ⟨g, hg, hi, -⟩
    rw [Memory.check_eq_ok.2 ⟨hg, hi⟩] at e
    cases e
  | ok g =>
    obtain ⟨hg, hi⟩ := Memory.check_eq_ok.1 e
    simp [hg, hi, eq_comm]

theorem Memory.read_eq_error {m : Memory} {h i : Word} {f : FaultReason} :
    m.read h i = .error f ↔
      (m.segment h = none ∧ f = .invalidHandle) ∨
        ∃ g, m.segment h = some g ∧ g.len.toNat ≤ i.toNat ∧ f = .outOfBoundsIndex := by
  rw [← Memory.check_eq_error]
  unfold Memory.read
  cases m.check h i <;> simp

/-- A read depends on its own segment alone. -/
theorem Memory.read_congr {m m' : Memory} {h : Word} (e : m'.segment h = m.segment h) (i : Word) :
    m'.read h i = m.read h i := by
  simp [Memory.read, Memory.check, e]

theorem Memory.write_eq_ok {m m' : Memory} {h i v : Word} :
    m.write h i v = .ok m' ↔
      ∃ g, m.segment h = some g ∧ i.toNat < g.len.toNat ∧ m' = m.put h (g.set i v) := by
  unfold Memory.write
  cases e : m.check h i with
  | error f =>
    simp only [reduceCtorEq, false_iff]
    rintro ⟨g, hg, hi, -⟩
    rw [Memory.check_eq_ok.2 ⟨hg, hi⟩] at e
    cases e
  | ok g =>
    obtain ⟨hg, hi⟩ := Memory.check_eq_ok.1 e
    simp [hg, hi, eq_comm]

theorem Memory.write_eq_error {m : Memory} {h i v : Word} {f : FaultReason} :
    m.write h i v = .error f ↔
      (m.segment h = none ∧ f = .invalidHandle) ∨
        ∃ g, m.segment h = some g ∧ g.len.toNat ≤ i.toNat ∧ f = .outOfBoundsIndex := by
  rw [← Memory.check_eq_error]
  unfold Memory.write
  cases m.check h i <;> simp

/-- A write keeps the canonical form of memory. -/
theorem Memory.wf_write {m m' : Memory} {h i v : Word} (hm : m.wf = true) (e : m.write h i v = .ok m') :
    m'.wf = true := by
  obtain ⟨g, hg, hi, rfl⟩ := Memory.write_eq_ok.1 e
  exact Memory.wf_put h hm (Segment.wf_set v (Memory.wf_segment hm hg) hi)

/-! ### Fetch -/

theorem State.fetch_eq_ok {s : State} {w : Word} :
    s.fetch = .ok w ↔ ∃ g, s.seg.segment 0#32 = some g ∧ s.pc.toNat < g.len.toNat ∧ w = g.get s.pc := by
  unfold State.fetch
  cases e : s.seg.segment 0#32 with
  | none => simp
  | some g =>
    by_cases hi : s.pc.toNat < g.len.toNat
    · simp [hi, eq_comm]
    · simp [hi]

/-- A fetch has one fault only. -/
theorem State.fetch_eq_error {s : State} {f : FaultReason} :
    s.fetch = .error f ↔ f = .outOfBoundsIndex ∧ ∀ g, s.seg.segment 0#32 = some g → g.len.toNat ≤ s.pc.toNat := by
  unfold State.fetch
  cases e : s.seg.segment 0#32 with
  | none => simp [eq_comm]
  | some g =>
    by_cases hi : s.pc.toNat < g.len.toNat
    · simp [hi]
    · simp [hi, eq_comm, Nat.not_lt.1 hi]

/-! ### The memory manager -/

/-- Allocation takes the oldest retired handle, or else the next fresh one. -/
theorem State.allocate_eq_ok {s t : State} {n h : Word} :
    s.allocate n = .ok (h, t) ↔
      overCapacity s.memCapacity (s.seg.used + n.toNat) = false ∧
        ((∃ rest, s.freelist = h :: rest ∧
            t = { s with freelist := rest, seg := s.seg.put h (.zeros n) }) ∨
          (s.freelist = [] ∧ s.nextHandle < Config.handleSpace ∧ h = BitVec.ofNat 32 s.nextHandle ∧
            t = { s with nextHandle := s.nextHandle + 1, seg := s.seg.put h (.zeros n) })) := by
  unfold State.allocate
  by_cases hc : overCapacity s.memCapacity (s.seg.used + n.toNat) = true
  · simp [hc]
  · rw [if_neg hc]
    simp only [Bool.not_eq_true] at hc
    cases hf : s.freelist with
    | cons k rest =>
      simp only [hc, Except.ok.injEq, Prod.mk.injEq, true_and, List.cons.injEq, reduceCtorEq, false_and, or_false]
      constructor
      · rintro ⟨rfl, rfl⟩
        exact ⟨rest, ⟨rfl, rfl⟩, rfl⟩
      · rintro ⟨_, ⟨rfl, rfl⟩, rfl⟩
        exact ⟨rfl, rfl⟩
    | nil =>
      by_cases hn : s.nextHandle < Config.handleSpace
      · simp only [hn, if_true, hc, Except.ok.injEq, Prod.mk.injEq, reduceCtorEq, false_and, exists_false, true_and,
          false_or]
        constructor
        · rintro ⟨rfl, rfl⟩
          exact ⟨rfl, rfl⟩
        · rintro ⟨rfl, rfl⟩
          exact ⟨rfl, rfl⟩
      · simp [hn]

theorem State.allocate_eq_error {s : State} {n : Word} {f : FaultReason} :
    s.allocate n = .error f ↔ f = .outOfMemory ∧
      (overCapacity s.memCapacity (s.seg.used + n.toNat) = true ∨
        (s.freelist = [] ∧ Config.handleSpace ≤ s.nextHandle)) := by
  unfold State.allocate
  by_cases hc : overCapacity s.memCapacity (s.seg.used + n.toNat) = true
  · simp [hc, eq_comm]
  · rw [if_neg hc]
    cases hf : s.freelist with
    | cons k rest => simp [hc]
    | nil =>
      by_cases hn : s.nextHandle < Config.handleSpace
      · simp [hn, hc]
      · simp only [hn, if_false, Except.error.injEq, Nat.not_lt.1 hn, and_self, or_true, and_true]
        exact eq_comm

theorem State.free_eq_ok {s t : State} {h : Word} :
    s.free h = .ok t ↔ h ≠ 0#32 ∧ s.seg.live h = true ∧
      t = { s with seg := s.seg.remove h, freelist := s.freelist ++ [h] } := by
  unfold State.free
  by_cases hh : h = 0#32 ∨ s.seg.live h = false
  · rw [if_pos hh]
    rcases hh with hh | hh <;> simp [hh]
  · rw [if_neg hh]
    obtain ⟨h0, hl⟩ := not_or.1 hh
    simp only [Bool.not_eq_false] at hl
    simp only [Except.ok.injEq, h0, ne_eq, not_false_eq_true, hl, true_and]
    exact eq_comm

theorem State.free_eq_error {s : State} {h : Word} {f : FaultReason} :
    s.free h = .error f ↔ f = .invalidHandle ∧ (h = 0#32 ∨ s.seg.live h = false) := by
  unfold State.free
  by_cases hh : h = 0#32 ∨ s.seg.live h = false
  · rw [if_pos hh]
    exact ⟨fun e => ⟨(Except.error.inj e).symm, hh⟩, fun e => by rw [e.1]⟩
  · rw [if_neg hh]
    exact ⟨fun e => (by cases e), fun e => absurd e.2 hh⟩

theorem State.replaceProgram_eq_ok {s t : State} {h : Word} :
    s.replaceProgram h = .ok t ↔ ∃ g, s.seg.segment h = some g ∧
      overCapacity s.memCapacity (s.seg.used - s.seg.lenOf 0#32 + g.len.toNat) = false ∧
      t = { s with seg := s.seg.put 0#32 g } := by
  unfold State.replaceProgram
  cases e : s.seg.segment h with
  | none => simp
  | some g =>
    simp only [Option.some.injEq, exists_eq_left']
    by_cases hc : overCapacity s.memCapacity (s.seg.used - s.seg.lenOf 0#32 + g.len.toNat) = true
    · rw [if_pos hc, hc]
      exact ⟨fun e => (by cases e), fun e => by cases e.1⟩
    · rw [if_neg hc]
      exact ⟨fun e => ⟨Bool.eq_false_iff.2 hc, (Except.ok.inj e).symm⟩, fun e => by rw [e.2]⟩

theorem State.replaceProgram_eq_error {s : State} {h : Word} {f : FaultReason} :
    s.replaceProgram h = .error f ↔
      (s.seg.segment h = none ∧ f = .invalidHandle) ∨
        ∃ g, s.seg.segment h = some g ∧
          overCapacity s.memCapacity (s.seg.used - s.seg.lenOf 0#32 + g.len.toNat) = true ∧ f = .outOfMemory := by
  unfold State.replaceProgram
  cases e : s.seg.segment h with
  | none =>
    simp only [reduceCtorEq, false_and, exists_false, or_false, true_and]
    exact ⟨fun e => (Except.error.inj e).symm, fun e => by rw [e]⟩
  | some g =>
    simp only [reduceCtorEq, false_and, false_or, Option.some.injEq, exists_eq_left']
    by_cases hc : overCapacity s.memCapacity (s.seg.used - s.seg.lenOf 0#32 + g.len.toNat) = true
    · rw [if_pos hc]
      exact ⟨fun e => ⟨hc, (Except.error.inj e).symm⟩, fun e => by rw [e.2]⟩
    · rw [if_neg hc]
      exact ⟨fun e => (by cases e), fun e => absurd e.1 hc⟩

/-! ### The channels -/

theorem State.writeFlush_eq_none {s : State} {b : Byte} : s.writeFlush b = none ↔ s.sinkAcks = some 0 := by
  unfold State.writeFlush
  rcases s.sinkAcks with _ | _ | n <;> simp

theorem State.writeFlush_eq_some {s t : State} {b : Byte} :
    s.writeFlush b = some t ↔ s.sinkAcks ≠ some 0 ∧
      t = { s with sinkAcks := s.sinkAcks.map (· - 1), channel := s.channel ++ [.byteWritten b] } := by
  unfold State.writeFlush
  rcases h : s.sinkAcks with _ | _ | n
  · simp only [Option.some.injEq, ne_eq, reduceCtorEq, not_false_eq_true, Option.map_none, true_and]
    rw [← h]
    exact eq_comm
  · simp
  · simp [eq_comm]

theorem State.refill_eq_none {s : State} :
    s.refill = none ↔ s.pendingInput = [] ∧ s.eofLatch = false ∧ s.lineIn = [] := by
  unfold State.refill
  by_cases h : s.pendingInput = [] ∧ s.eofLatch = false
  · rw [if_pos h]
    cases s.lineIn <;> simp [h]
  · rw [if_neg h]
    simp only [reduceCtorEq, false_iff, ← and_assoc]
    exact fun e => h e.1

theorem State.refill_eq_some {s t : State} :
    s.refill = some t ↔
      (s.pendingInput = [] ∧ s.eofLatch = false ∧ ∃ answer rest, s.lineIn = answer :: rest ∧
        t = State.receive { s with lineIn := rest, channel := s.channel ++ [.lineTaken answer] } answer) ∨
      ((s.pendingInput ≠ [] ∨ s.eofLatch = true) ∧ t = s) := by
  unfold State.refill
  by_cases h : s.pendingInput = [] ∧ s.eofLatch = false
  · rw [if_pos h]
    cases hl : s.lineIn with
    | nil => simp [h]
    | cons answer rest => simp [h, eq_comm]
  · rw [if_neg h]
    have h' : s.pendingInput ≠ [] ∨ s.eofLatch = true := by
      by_cases hp : s.pendingInput = []
      · exact .inr (by simpa [hp] using h)
      · exact .inl hp
    simp only [Option.some.injEq, h', true_and]
    constructor
    · exact fun e => .inr e.symm
    · rintro (⟨h1, h2, -⟩ | e)
      · exact absurd ⟨h1, h2⟩ h
      · exact e.symm

theorem State.takeByte_nil {s : State} (c : Reg) (h : s.pendingInput = []) :
    s.takeByte c = s.setReg c Config.allOnes := by
  simp [State.takeByte, h]

theorem State.takeByte_cons {s : State} (c : Reg) {b : Byte} {rest : List Byte} (h : s.pendingInput = b :: rest) :
    s.takeByte c = State.setReg { s with pendingInput := rest } c (byteToWord b) := by
  simp [State.takeByte, h]

/-- Taking back the advance of the pc leaves the state as it was: a waiting instruction changes nothing. -/
theorem wait_advance (s : State) : wait s.advance = .next s := by
  simp [wait, State.advance]

end Sys2Proof.Machine
end

