-- ==== Sys2Proof/Laws/Step.lean ====
section
/-! SUPPORT. What one step can do, said once. -/

namespace Sys2Proof.Machine

@[simp] theorem raise_eq_next {f : FaultReason} {s t : State} :
    raise f s = .next t ↔ t = { s with runState := .faulted, faultReason := f } := by
  simp only [raise, Host.Outcome.next.injEq]
  exact eq_comm

@[simp] theorem wait_eq_next {s t : State} : wait s = .next t ↔ t = { s with pc := s.pc - 1 } := by
  simp only [wait, Host.Outcome.next.injEq]
  exact eq_comm

/-- A step that answers a next state was taken while Running, and it is a fetch fault, an unknown opcode, or the execution of the
decoded instruction after the advance of the pc. -/
theorem step_eq_next_cases {s t : State} (h : step s = .next t) :
    s.runState = .running ∧
      ((∃ f, s.fetch = .error f ∧ raise f s = .next t) ∨
        (∃ w op, s.fetch = .ok w ∧ decode w = .unknown op ∧ raise .unknownOpcode s = .next t) ∨
        ∃ w i, s.fetch = .ok w ∧ decode w = .instr i ∧ exec i s.advance = .next t) := by
  unfold step at h
  cases hr : s.runState with
  | halted => simp [hr, noStep] at h
  | faulted => simp [hr, noStep] at h
  | running =>
    refine ⟨rfl, ?_⟩
    simp only [hr] at h
    cases hf : s.fetch with
    | error f => exact .inl ⟨f, rfl, by simpa only [hf] using h⟩
    | ok w =>
      simp only [hf] at h
      cases hd : decode w with
      | unknown op => exact .inr (.inl ⟨w, op, rfl, hd, by simpa only [hd] using h⟩)
      | instr i => exact .inr (.inr ⟨w, i, rfl, hd, by simpa only [hd] using h⟩)

end Sys2Proof.Machine
end

