-- ==== Sys2Proof/Laws/Frames.lean ====
section
/-! SUPPORT. The frames of the shared operations: what raising a fault, writing a register, writing memory and the memory manager's
operations leave unchanged. -/

namespace Sys2Proof.Machine

theorem onlyRaises (f : FaultReason) (s : State) : OnlyRaises f s { s with runState := .faulted, faultReason := f } :=
  ⟨rfl, rfl, fun _ => rfl, rfl, fun _ _ => rfl, ⟨rfl, rfl⟩, ⟨rfl, rfl, rfl⟩, ⟨rfl, rfl⟩, rfl⟩

theorem onlyRegChanges_setReg (a : Reg) (v : Word) (s : State) : OnlyRegChanges a s (s.setReg a v) :=
  ⟨fun _ h => State.reg_setReg_other s v h, rfl, ⟨rfl, rfl⟩, fun _ _ => rfl, ⟨rfl, rfl⟩, ⟨rfl, rfl, rfl⟩, ⟨rfl, rfl⟩, rfl⟩

theorem onlyRegChanges_self (a : Reg) (s : State) : OnlyRegChanges a s s :=
  ⟨fun _ _ => rfl, rfl, ⟨rfl, rfl⟩, fun _ _ => rfl, ⟨rfl, rfl⟩, ⟨rfl, rfl, rfl⟩, ⟨rfl, rfl⟩, rfl⟩

/-- Putting a segment under `h` changes no word of another handle. -/
theorem Memory.read_put_other (m : Memory) {h k : Word} (g : Segment) (hk : k ≠ h) (i : Word) :
    (m.put h g).read k i = m.read k i :=
  Memory.read_congr (Memory.segment_put_other m g hk) i

theorem Memory.read_remove_other (m : Memory) {h k : Word} (hk : k ≠ h) (i : Word) :
    (m.remove h).read k i = m.read k i :=
  Memory.read_congr (Memory.segment_remove_other m hk) i

/-- The words of a segment that was put are its own. -/
theorem Memory.read_put_same (m : Memory) (h : Word) {g : Segment} {i : Word} (hi : i.toNat < g.len.toNat) :
    (m.put h g).read h i = .ok (g.get i) :=
  Memory.read_eq_ok.2 ⟨g, Memory.segment_put_same m h g, hi, rfl⟩

/-- Writing one word of a segment in place changes no other word of memory. -/
theorem Memory.read_put_set_other {m : Memory} {h i : Word} {g : Segment} (v : Word) (hg : m.segment h = some g)
    {k j : Word} (hkj : ¬ (k = h ∧ j = i)) : (m.put h (g.set i v)).read k j = m.read k j := by
  by_cases hk : k = h
  · subst hk
    have hj : j ≠ i := fun e => hkj ⟨rfl, e⟩
    by_cases hi : j.toNat < g.len.toNat
    · rw [Memory.read_put_same m k (g := g.set i v) hi, Segment.get_set_other g v hj, Memory.read_eq_ok.2 ⟨g, hg, hi, rfl⟩]
    · rw [Memory.read_eq_error.2 (.inr ⟨g.set i v, Memory.segment_put_same m k _, Nat.not_lt.1 hi, rfl⟩),
        Memory.read_eq_error.2 (.inr ⟨g, hg, Nat.not_lt.1 hi, rfl⟩)]
  · exact Memory.read_put_other m _ hk j

end Sys2Proof.Machine
end

