-- ==== Sys2Proof/Laws/Exec.lean ====
section
/-! SUPPORT. What the execution of one instruction can do, said once: the inversion of `exec`, which proofs about next states cite
instead of unfolding the meanings. -/

namespace Sys2Proof.Machine

/-- Asking for a line changes the input state and the trace only. -/
theorem State.refill_frame {s t : State} (h : s.refill = some t) :
    t.regs = s.regs ∧ t.pc = s.pc ∧ t.runState = s.runState ∧ t.faultReason = s.faultReason ∧ t.seg = s.seg ∧
      t.freelist = s.freelist ∧ t.nextHandle = s.nextHandle ∧ t.sinkAcks = s.sinkAcks ∧
      t.memCapacity = s.memCapacity := by
  rcases State.refill_eq_some.1 h with ⟨_, _, a, r, _, rfl⟩ | ⟨_, rfl⟩
  · cases a <;> exact ⟨rfl, rfl, rfl, rfl, rfl, rfl, rfl, rfl, rfl⟩
  · exact ⟨rfl, rfl, rfl, rfl, rfl, rfl, rfl, rfl, rfl⟩

/-- Taking a byte changes one register and the queue only. -/
theorem State.takeByte_frame (c : Reg) (s : State) :
    (s.takeByte c).pc = s.pc ∧ (s.takeByte c).runState = s.runState ∧ (s.takeByte c).faultReason = s.faultReason ∧
      (s.takeByte c).seg = s.seg ∧ (s.takeByte c).freelist = s.freelist ∧ (s.takeByte c).nextHandle = s.nextHandle ∧
      (s.takeByte c).sinkAcks = s.sinkAcks ∧ (s.takeByte c).memCapacity = s.memCapacity ∧
      (s.takeByte c).eofLatch = s.eofLatch ∧ (s.takeByte c).lineIn = s.lineIn ∧ (s.takeByte c).channel = s.channel ∧
      ∃ v, (s.takeByte c).regs = s.regs.set c v := by
  unfold State.takeByte
  split <;> exact ⟨rfl, rfl, rfl, rfl, rfl, rfl, rfl, rfl, rfl, rfl, rfl, _, rfl⟩

/-- The cases of `exec i s = .next t`. -/
inductive ExecCase : Instr → State → State → Prop where
  /-- The instruction's own check raised a fault. -/
  | raised (i s f) : f ≠ .noFault → ExecCase i s { s with runState := .faulted, faultReason := f }
  /-- The instruction waits for its channel. -/
  | waits (i s) : Waits i s → ExecCase i s { s with pc := s.pc - 1 }
  /-- Conditional Move whose condition does not hold. -/
  | notMoved (a b c s) : s.reg c = 0#32 → ExecCase (.cmov a b c) s s
  /-- An instruction that only writes a register. -/
  | setReg (i s a v) : Writes i s a → (∀ a b c, i ≠ .alloc a b c) → (∀ a b c, i ≠ .input a b c) →
      ExecCase i s (s.setReg a v)
  | amend (a b c s m) : s.seg.write (s.reg a) (s.reg b) (s.reg c) = .ok m → ExecCase (.amend a b c) s { s with seg := m }
  | alloc (a b c s h t) : s.allocate (s.reg c) = .ok (h, t) → ExecCase (.alloc a b c) s (t.setReg b h)
  | abandon (a b c s t) : s.free (s.reg c) = .ok t → ExecCase (.abandon a b c) s t
  | halt (a b c s) : ExecCase (.halt a b c) s { s with runState := .halted }
  | output (a b c s t) : (s.reg c).toNat ≤ 255 → s.writeFlush (lowByte (s.reg c)) = some t →
      ExecCase (.output a b c) s t
  | input (a b c s t) : s.refill = some t → ExecCase (.input a b c) s (t.takeByte c)
  | jump (a b c s) : s.reg b = 0#32 → ExecCase (.loadprog a b c) s { s with pc := s.reg c }
  | load (a b c s t) : s.reg b ≠ 0#32 → s.replaceProgram (s.reg b) = .ok t →
      ExecCase (.loadprog a b c) s { t with pc := s.reg c }

/-- A failed read names a fault. -/
theorem Memory.read_error_ne {m : Memory} {h i : Word} {f : FaultReason} (e : m.read h i = .error f) :
    f ≠ .noFault := by
  rcases Memory.read_eq_error.1 e with ⟨_, rfl⟩ | ⟨_, _, _, rfl⟩ <;> decide

/-- Whatever instruction answers a next state, it is one of the cases. -/
theorem exec_eq_next_cases {i : Instr} {s t : State} (h : exec i s = .next t) : ExecCase i s t := by
  cases i with
  | cmov a b c =>
    simp only [exec, execCmov, Host.Outcome.next.injEq, State.conditionHolds] at h
    subst h
    by_cases hc : s.reg c = 0#32
    · simpa [hc] using ExecCase.notMoved a b c s hc
    · simpa [hc] using ExecCase.setReg (.cmov a b c) s a (s.reg b) ⟨rfl, hc⟩ (by simp) (by simp)
  | index a b c =>
    simp only [exec, execIndex] at h
    split at h
    · next e =>
      rw [raise_eq_next] at h
      subst h
      exact .raised _ _ _ (Memory.read_error_ne e)
    · cases h; exact .setReg _ _ _ _ rfl (by simp) (by simp)
  | amend a b c =>
    simp only [exec, execAmend] at h
    split at h
    · next e =>
      rw [raise_eq_next] at h
      subst h
      refine .raised _ _ _ ?_
      rcases Memory.write_eq_error.1 e with ⟨_, rfl⟩ | ⟨_, _, _, rfl⟩ <;> decide
    · next e => cases h; exact .amend a b c s _ e
  | add a b c => cases h; exact .setReg _ _ _ _ rfl (by simp) (by simp)
  | mul a b c => cases h; exact .setReg _ _ _ _ rfl (by simp) (by simp)
  | div a b c =>
    simp only [exec, execDiv, quotient] at h
    by_cases hc : s.reg c = 0#32
    · rw [if_pos hc] at h; simp only [raise_eq_next] at h; subst h; exact .raised _ _ _ (by decide)
    · rw [if_neg hc] at h; cases h; exact .setReg _ _ _ _ rfl (by simp) (by simp)
  | nand a b c => cases h; exact .setReg _ _ _ _ rfl (by simp) (by simp)
  | halt a b c => cases h; exact .halt a b c s
  | alloc a b c =>
    simp only [exec, execAlloc] at h
    split at h
    · next e =>
      rw [raise_eq_next] at h
      subst h
      refine .raised _ _ _ ?_
      rw [(State.allocate_eq_error.1 e).1]
      decide
    · next e => cases h; exact .alloc a b c s _ _ e
  | abandon a b c =>
    simp only [exec, execAbandon] at h
    split at h
    · next e =>
      rw [raise_eq_next] at h
      subst h
      refine .raised _ _ _ ?_
      rw [(State.free_eq_error.1 e).1]
      decide
    · next e => cases h; exact .abandon a b c s _ e
  | output a b c =>
    simp only [exec, execOutput] at h
    by_cases hc : Config.maxOutputByte < (s.reg c).toNat
    · rw [if_pos hc, raise_eq_next] at h; subst h; exact .raised _ _ _ (by decide)
    · rw [if_neg hc] at h
      have hc : (s.reg c).toNat ≤ 255 := Nat.not_lt.1 hc
      split at h
      · next e => rw [wait_eq_next] at h; subst h; exact .waits _ _ ⟨hc, State.writeFlush_eq_none.1 e⟩
      · next e => cases h; exact .output a b c s _ hc e
  | input a b c =>
    simp only [exec, execInput] at h
    split at h
    · next e => rw [wait_eq_next] at h; subst h; exact .waits _ _ (State.refill_eq_none.1 e)
    · next e => cases h; exact .input a b c s _ e
  | loadprog a b c =>
    simp only [exec, execLoadprog] at h
    by_cases hb : s.reg b = 0#32
    · rw [if_pos hb] at h; cases h; exact .jump a b c s hb
    · rw [if_neg hb] at h
      split at h
      · next e =>
        rw [raise_eq_next] at h
        subst h
        refine .raised _ _ _ ?_
        rcases State.replaceProgram_eq_error.1 e with ⟨_, rfl⟩ | ⟨_, _, _, rfl⟩ <;> decide
      · next e => cases h; exact .load a b c s _ hb e
  | ortho a imm => cases h; exact .setReg _ _ _ _ rfl (by simp) (by simp)

end Sys2Proof.Machine
end

