-- ==== Sys2Proof/Tests/Slice0.lean ====
section
/-! SUPPORT. The model's own tests. The expected results are those of spec/95_test_vectors.md (its section is named) or worked out from
the rule named. Then, for every statement that has hypotheses, a witness that meets them. -/

namespace Sys2Proof.Tests

open Sys2Proof.Machine

/-! ## Helpers -/

/-- The reset state with a program of the given words. -/
def program (ws : List Word) : State := { State.reset with seg := [(0, Segment.ofWords ws)] }

/-- The next state of a result. -/
def after : Result → Option State
  | .next t => some t
  | .fault _ => none
  | .refused _ => none

/-- One step from a state whose registers r1 to r4 have the given values, with the word `w` as its program. -/
def stepWith (w x1 x2 x3 x4 : Word) : Option State :=
  after (step ((((program [w]).setReg .r1 x1).setReg .r2 x2 |>.setReg .r3 x3).setReg .r4 x4))

/-- One step of the word `w` from a state with a segment under handle 1, of the given words, beside the program. -/
def stepSeg (w : Word) (seg1 : List Word) (x1 x2 x3 x4 : Word) : Option State :=
  after (step ((({ program [w] with
    seg := [(0, Segment.ofWords [w]), (1, Segment.ofWords seg1)], nextHandle := 2 } : State).setReg .r1 x1).setReg .r2 x2
      |>.setReg .r3 x3 |>.setReg .r4 x4))

/-- The value of a register after a step. -/
def valueOf (t : Option State) (r : Reg) : Option Word := t.map (·.reg r)

/-- RUNSTATE, FAULT_REASON and the pc after a step. -/
def ending (t : Option State) : Option (RunState × FaultReason × Word) := t.map fun u => (u.runState, u.faultReason, u.pc)

/-! ## WellFormed: the one check, and a term it refuses -/

theorem test_immediate_too_large : (Instr.ortho .r0 0x2000000#32).wellFormed = false := by decide
theorem test_immediate_largest : (Instr.ortho .r0 0x1FFFFFF#32).wellFormed = true := by decide

/-! ## Decoding: every constructor, from words written out field by field (30_encoding.md R82, R83; 95_test_vectors.md 2.1) -/

theorem test_decode_cmov : decode 0b0000_0000000000000000000_001_010_011#32 = .instr (.cmov .r1 .r2 .r3) := by decide
theorem test_decode_index : decode 0b0001_0010001101000101011_001_111_000#32 = .instr (.index .r1 .r7 .r0) := by decide
theorem test_decode_amend : decode 0b0010_0000000000000000000_010_011_100#32 = .instr (.amend .r2 .r3 .r4) := by decide
theorem test_decode_add : decode 0b0011_0000000000000000000_001_010_011#32 = .instr (.add .r1 .r2 .r3) := by decide
theorem test_decode_mul : decode 0b0100_0000000000000000000_011_001_010#32 = .instr (.mul .r3 .r1 .r2) := by decide
theorem test_decode_div : decode 0b0101_0000000000000000000_110_111_000#32 = .instr (.div .r6 .r7 .r0) := by decide
theorem test_decode_nand : decode 0b0110_0000000000000000000_010_000_000#32 = .instr (.nand .r2 .r0 .r0) := by decide
theorem test_decode_halt : decode 0b0111_0000000000000000000_000_000_000#32 = .instr (.halt .r0 .r0 .r0) := by decide
theorem test_decode_alloc : decode 0b1000_0000000000000000000_000_010_001#32 = .instr (.alloc .r0 .r2 .r1) := by decide
theorem test_decode_abandon : decode 0b1001_0000000000000000000_000_000_010#32 = .instr (.abandon .r0 .r0 .r2) := by decide
theorem test_decode_output : decode 0b1010_0000000000000000000_111_111_111#32 = .instr (.output .r7 .r7 .r7) := by decide
theorem test_decode_input : decode 0b1011_0000000000000000000_000_000_001#32 = .instr (.input .r0 .r0 .r1) := by decide
theorem test_decode_loadprog : decode 0b1100_0000000000000000000_000_010_000#32 = .instr (.loadprog .r0 .r2 .r0) := by decide
theorem test_decode_ortho : decode 0b1101_101_0000000000000000000101010#32 = .instr (.ortho .r5 42#32) := by decide
theorem test_decode_ortho_largest : decode 0xDFFFFFFF#32 = .instr (.ortho .r7 0x1FFFFFF#32) := by decide
theorem test_decode_ignored_bits : decode 0x0FFFFE00#32 = decode 0x00000000#32 := by decide
theorem test_decode_unknown : decode 0xE0000000#32 = .unknown 14#4 ∧ decode 0xFFFFFFFF#32 = .unknown 15#4 := by decide
theorem test_decode_table_word : decodeTableWord 32 0x30000053 = some (.add .r1 .r2 .r3) ∧
    decodeTableWord 32 0xE0000000 = none := by decide
/-- 30_encoding.md R93. -/
theorem test_encode : encode (.add .r1 .r2 .r3) = 0x30000053#32 ∧ encode (.halt .r0 .r0 .r0) = 0x70000000#32 ∧
    encode (.ortho .r5 42#32) = 0xDA00002A#32 := by decide

/-! ## Register operations (95_test_vectors.md 2.2) -/

theorem test_cmov_moves : valueOf (stepWith 0x00000053#32 5#32 9#32 1#32 0#32) .r1 = some 9#32 := by decide
theorem test_cmov_keeps : valueOf (stepWith 0x00000053#32 5#32 9#32 0#32 0#32) .r1 = some 5#32 := by decide
theorem test_add_wraps : valueOf (stepWith 0x30000053#32 0#32 0xFFFFFFFF#32 1#32 0#32) .r1 = some 0#32 := by decide
theorem test_add_doubles : valueOf (stepWith 0x30000049#32 0x80000001#32 0#32 0#32 0#32) .r1 = some 2#32 := by decide
theorem test_mul_wraps : valueOf (stepWith 0x40000053#32 0#32 0x12345678#32 0x9ABCDEF0#32 0#32) .r1 = some 0x242D2080#32 := by decide
theorem test_div_unsigned : valueOf (stepWith 0x50000053#32 9#32 0x80000000#32 0xFFFFFFFF#32 0#32) .r1 = some 0#32 := by decide
theorem test_div_by_zero : ending (stepWith 0x50000053#32 77#32 9#32 0#32 0#32) = some (.faulted, .divisionByZero, 1#32) ∧
    valueOf (stepWith 0x50000053#32 77#32 9#32 0#32 0#32) .r1 = some 77#32 := by decide
theorem test_nand_bits : valueOf (stepWith 0x60000053#32 0#32 0xFFFF0000#32 0x00FFFF00#32 0#32) .r1 = some 0xFF00FFFF#32 := by decide
theorem test_nand_not : valueOf (stepWith 0x60000052#32 0#32 0x12345678#32 0#32 0#32) .r1 = some 0xEDCBA987#32 := by decide
theorem test_ortho : valueOf (stepWith 0xDFFFFFFF#32 1#32 2#32 3#32 4#32) .r7 = some 0x01FFFFFF#32 ∧
    valueOf (stepWith 0xDFFFFFFF#32 1#32 2#32 3#32 4#32) .r1 = some 1#32 := by decide

/-! ## Segment operations (95_test_vectors.md 2.3) -/

/-- `index r1, r2, r3`. -/
theorem test_index_reads : valueOf (stepSeg 0x10000053#32 [0#32, 0x1234#32] 0#32 1#32 1#32 0#32) .r1 = some 0x1234#32 := by decide
/-- The handle is checked before the index. -/
theorem test_index_handle_first :
    ending (stepSeg 0x10000053#32 [0#32] 0#32 5#32 0xFFFFFFFF#32 0#32) = some (.faulted, .invalidHandle, 1#32) := by decide
/-- `amend r2, r3, r4`. -/
theorem test_amend_writes : (stepSeg 0x2000009C#32 [0#32, 0#32] 0#32 1#32 1#32 0x1234#32).map (fun t =>
    (t.seg.read 1#32 0#32, t.seg.read 1#32 1#32)) = some (.ok 0#32, .ok 0x1234#32) := by decide
theorem test_amend_out_of_range :
    ending (stepSeg 0x2000009C#32 [0#32, 0#32] 0#32 1#32 2#32 7#32) = some (.faulted, .outOfBoundsIndex, 1#32) := by decide
/-- `alloc r1, r1` uses the old r1 as the size. -/
theorem test_alloc_same_register : (stepWith 0x80000009#32 2#32 0#32 0#32 0#32).map (fun t =>
    (t.reg .r1, t.seg.read 1#32 1#32, t.seg.read 1#32 2#32)) = some (1#32, .ok 0#32, .error .outOfBoundsIndex) := by decide
/-- With MEM_CAPACITY_WORDS = 10 and 10 words used, size 1 fails and size 0 succeeds. -/
theorem test_alloc_out_of_memory :
    (let s : State := { State.reset with seg := [(0, ⟨10#32, []⟩)], memCapacity := some 10 }
     ((after (execAlloc .r0 .r1 .r2 (s.setReg .r2 1#32))).map (fun t => (t.faultReason, t.nextHandle, t.reg .r1)),
      (after (execAlloc .r0 .r1 .r0 s)).map (fun t => (t.faultReason, t.nextHandle, t.reg .r1)))) =
    (some (.outOfMemory, 1, 0#32), some (.noFault, 2, 1#32)) := by decide
/-- `abandon r2`. -/
theorem test_abandon : (stepSeg 0x90000002#32 [5#32] 0#32 1#32 0#32 0#32).map (fun t =>
    (t.seg.live 1#32, t.freelist)) = some (false, [1#32]) := by decide
theorem test_abandon_zero : ending (stepWith 0x90000001#32 0#32 0#32 0#32 0#32) = some (.faulted, .invalidHandle, 1#32) := by decide

/-! ## Control and input/output (95_test_vectors.md 2.4) -/

theorem test_halt : ending (stepWith 0x7ABCDEF0#32 0#32 0#32 0#32 0#32) = some (.halted, .noFault, 1#32) := by decide
theorem test_output_byte : (stepWith 0xA0000001#32 255#32 0#32 0#32 0#32).map (·.outputTrace) = some [0xFF#8] := by decide
theorem test_output_too_large : ending (stepWith 0xA0000001#32 256#32 0#32 0#32 0#32) = some (.faulted, .invalidOutputByte, 1#32) ∧
    (stepWith 0xA0000001#32 256#32 0#32 0#32 0#32).map (·.outputTrace) = some [] := by decide
theorem test_input_line : (after (step { program [0xB0000001#32] with lineIn := [.line [0x68#8, 0x69#8]] })).map (fun t =>
    (t.reg .r1, t.pendingInput, t.lineIn)) = some (0x68#32, [0x69#8, 0x0A#8], []) := by decide
theorem test_input_end : (after (step { program [0xB0000001#32] with lineIn := [.endOfInput] })).map (fun t =>
    (t.reg .r1, t.eofLatch, t.runState)) = some (0xFFFFFFFF#32, true, .running) := by decide
/-- `loadprog r0, r1` with x0 = 0 is a jump. -/
theorem test_loadprog_jump : (stepWith 0xC0000001#32 100#32 0#32 0#32 0#32).map (fun t => (t.pc, t.seg.lenOf 0#32)) =
    some (100#32, 1) := by decide
/-- `loadprog r2, r2` with x2 = 1 and three words in segment 1. -/
theorem test_loadprog_copies : (stepSeg 0xC0000012#32 [7#32, 8#32, 9#32] 0#32 1#32 0#32 0#32).map (fun t =>
    (t.pc, t.seg.lenOf 0#32, t.seg.read 0#32 2#32)) = some (1#32, 3, .ok 9#32) := by decide

/-! ## Step, faults and loader (95_test_vectors.md 2.5) -/

theorem test_unknown_opcode : ending (after (step (program [0xE0000000#32]))) = some (.faulted, .unknownOpcode, 0#32) := by decide
theorem test_empty_program : ending (after (step (State.init none []))) = some (.faulted, .outOfBoundsIndex, 0#32) := by decide
theorem test_init_big_endian : (State.init none [0x12#8, 0x34#8, 0x56#8, 0x78#8]).seg = [(0, ⟨1#32, [(0, 0x12345678#32)]⟩)] := by decide
theorem test_init_bad_length : (State.init none [0xD0#8, 0x00#8, 0x00#8, 0x48#8, 0x70#8]).faultReason = .loadError := by decide
theorem test_fetch_word : ending (after (step (State.reset.withFetchWord 32 0x70000000))) = some (.halted, .noFault, 1#32) := by decide

/-! ## Witnesses: for each statement with hypotheses, concrete states and operands that meet them, clause by clause -/

/-- A state that meets the invariant: handle 1 live with two words, handle 2 retired, `amend r1, r0, r1` as the program, r1 = 1. -/
def sample : State :=
  ({ State.reset with
    seg := [(0, Segment.ofWords [0x20000041#32]), (1, ⟨2#32, []⟩)], freelist := [2#32], nextHandle := 3 } : State).setReg .r1 1#32

theorem sample_inv : sample.Inv := by
  have word_of {h : Word} {n : Nat} (e : h.toNat = n) (hn : n < 2 ^ 32) : h = BitVec.ofNat 32 n :=
    BitVec.eq_of_toNat_eq (by rw [e, BitVec.toNat_ofNat, Nat.mod_eq_of_lt hn])
  refine ⟨by decide, ⟨by decide, by decide, fun h h1 h2 => ?_, fun h h1 => ?_, by decide, by decide⟩, by decide, rfl, by decide⟩
  · have h2 : h.toNat < 3 := h2
    have e : h.toNat = 1 ∨ h.toNat = 2 := by omega
    rcases e with e | e
    · rw [word_of e (by decide)]; decide
    · rw [word_of e (by decide)]; decide
  · have h1 : 3 ≤ h.toNat := h1
    have n0 : h.toNat ≠ 0 := by omega
    have n1 : h.toNat ≠ 1 := by omega
    refine ⟨?_, fun hm => ?_⟩
    · have : sample.seg.segment h = none := by
        show Assoc.find h.toNat [(0, _), (1, _)] = none
        simp only [Assoc.find, n0, n1, if_false]
      exact (Memory.live_eq_false_iff _ _).2 this
    · have hm : h = 2#32 := List.mem_singleton.1 hm
      rw [hm] at h1
      exact absurd h1 (by decide)

theorem witness_DecoderReadsFields : StandardWord 12 .r7 .r0 .r7 0xC00001C7#32 ∧ StandardWord 0 .r0 .r7 .r0 0x0FFFFE38#32 ∧
    ImmediateWord .r0 0x1FFFFFF 0xD1FFFFFF#32 ∧ ImmediateWord .r7 0 0xDE000000#32 ∧ 14 ≤ (0xE0000000#32).toNat / 2 ^ 28 ∧
    14 ≤ (0xFFFFFFFF#32).toNat / 2 ^ 28 := by
  unfold StandardWord ImmediateWord; decide
theorem witness_DecodeEncodeRoundTrip : (Instr.ortho .r7 0x1FFFFFF#32).wellFormed = true := by decide
theorem witness_EncodeDecodeKeepsDefinedBits : decode 0xCFFFFFFF#32 = .instr (.loadprog .r7 .r7 .r7) ∧
    decode 0xD1FFFFFF#32 = .instr (.ortho .r0 0x1FFFFFF#32) := by decide
theorem witness_UndefinedBitsIgnored : (0xC00001FF#32).toNat / 2 ^ 28 ≤ 12 ∧
    (0xCFFFFFFF#32).toNat / 2 ^ 28 = (0xC00001FF#32).toNat / 2 ^ 28 ∧
    (0xCFFFFFFF#32).toNat % 2 ^ 9 = (0xC00001FF#32).toNat % 2 ^ 9 ∧ (0xDFFFFFFF#32).toNat / 2 ^ 28 ≤ 13 := by decide
/-- Running, with the pc at the last index of segment 0: an instruction, an unknown opcode; and with the pc just past the end. -/
theorem witness_StepRunsDecodedInstruction :
    (program [0x70000000#32]).seg.segment 0#32 = some (Segment.ofWords [0x70000000#32]) ∧
    (program [0x70000000#32]).pc.toNat < (Segment.ofWords [0x70000000#32]).len.toNat ∧
    decode ((Segment.ofWords [0x70000000#32]).get (program [0x70000000#32]).pc) = .instr (.halt .r0 .r0 .r0) ∧
    decode ((Segment.ofWords [0xE0000000#32]).get (program [0xE0000000#32]).pc) = .unknown 14#4 ∧
    (program []).seg.segment 0#32 = some (Segment.ofWords []) ∧
    (Segment.ofWords []).len.toNat ≤ (program []).pc.toNat ∧ (program []).runState = .running ∧
    ({ program [] with runState := .halted } : State).runState ≠ .running := by decide
/-- Load Program that completes, and an instruction that neither is Load Program nor waits. -/
theorem witness_OnlyLoadProgramWritesPc :
    (∃ t, exec (.loadprog .r0 .r0 .r1) sample = .next t ∧ t.runState = .running) ∧
    (¬ Waits (.halt .r0 .r0 .r0) sample ∧ ∃ t, exec (.halt .r0 .r0 .r0) sample = .next t) :=
  ⟨⟨_, rfl, rfl⟩, fun h => h, _, rfl⟩
/-- A fault of the fetch, of the decoder and of an instruction. -/
theorem witness_FaultsArePrecise :
    (∃ t, step (program []) = .next t ∧ t.runState = .faulted) ∧
    (∃ t, step (program [0xE0000000#32]) = .next t ∧ t.runState = .faulted ∧ (program [0xE0000000#32]).fetch = .ok 0xE0000000#32) ∧
    (∃ t, step (program [0x50000000#32]) = .next t ∧ t.runState = .faulted ∧ (program [0x50000000#32]).fetch = .ok 0x50000000#32) :=
  ⟨⟨_, rfl, rfl⟩, ⟨_, rfl, rfl, rfl⟩, ⟨_, rfl, rfl, rfl⟩⟩
theorem witness_TerminalStatesNeverContinue : ({ program [] with runState := .halted } : State).runState ≠ .running ∧
    ({ program [] with runState := .faulted } : State).runState ≠ .running := by decide
theorem witness_RunningStepAlwaysAnswers : sample.runState = .running := rfl
theorem witness_InitLoadsProgram : ([0x70#8, 0#8, 0#8, 0#8] : List Byte).length % 4 = 0 ∧
    ([0x70#8, 0#8, 0#8, 0#8] : List Byte).length / 4 ≤ 2 ^ 32 - 1 ∧ Fits (some 1) 1 ∧ Fits none 1 :=
  ⟨by decide, by decide, fun _ e => by cases e; exact Nat.le_refl _, fun _ e => by cases e⟩
/-- A bad length, too many words and a program over the capacity. -/
theorem witness_InitRefusesBadPrograms : ([0#8] : List Byte).length % 4 ≠ 0 ∧
    2 ^ 32 - 1 < (List.replicate (4 * 2 ^ 32) 0#8).length / 4 ∧ ¬ Fits (some 0) 1 :=
  ⟨by decide, by rw [List.length_replicate]; decide, fun h => absurd (h 0 rfl) (by decide)⟩
theorem witness_StepKeepsInvariant : sample.Inv ∧ ∃ t, step sample = .next t := ⟨sample_inv, _, rfl⟩
theorem witness_ReachableStatesMeetInvariant : ∃ s, Reachable s ∧ s.runState = .halted :=
  ⟨_, .step (.init none [0x70#8, 0#8, 0#8, 0#8] none) rfl, rfl⟩

theorem witness_CmovMovesWhenConditionHolds : StandardWord 0 .r1 .r2 .r3 0x00000053#32 ∧ sample.reg .r1 ≠ 0#32 ∧
    sample.reg .r0 = 0#32 := by unfold StandardWord; decide
theorem witness_AddWritesSumModulo : StandardWord 3 .r1 .r2 .r3 0x30000053#32 := by unfold StandardWord; decide
theorem witness_MulWritesProductModulo : StandardWord 4 .r3 .r1 .r2 0x400000CA#32 := by unfold StandardWord; decide
theorem witness_DivWritesQuotientOrFaults : StandardWord 5 .r1 .r2 .r3 0x50000053#32 ∧ sample.reg .r1 ≠ 0#32 ∧
    sample.reg .r0 = 0#32 := by unfold StandardWord; decide
theorem witness_NandWritesEveryBit : StandardWord 6 .r2 .r0 .r0 0x60000080#32 := by unfold StandardWord; decide
theorem witness_OrthoWritesImmediate : ImmediateWord .r5 42 0xDA00002A#32 := by unfold ImmediateWord; decide
theorem witness_RegisterWriters : (Reg.r1 ≠ .r0) ∧ ∃ t, exec (.add .r1 .r2 .r3) sample = .next t := ⟨by decide, _, rfl⟩

/-- Segment 1 has two words: the last index in range and the first out of range; handle 3 is not live. -/
theorem witness_MemoryReadAndWrite : sample.seg.segment 1#32 = some ⟨2#32, []⟩ ∧ (1#32).toNat < (2#32).toNat ∧
    (2#32).toNat ≤ (2#32).toNat ∧ sample.seg.segment 3#32 = none := by decide
theorem witness_IndexReadsWordOrFaults : StandardWord 1 .r5 .r2 .r3 0x10000153#32 ∧
    sample.seg.segment (sample.reg .r1) = some ⟨2#32, []⟩ ∧ (sample.reg .r1).toNat < (2#32).toNat ∧
    (sample.setReg .r2 3#32).seg.segment ((sample.setReg .r2 3#32).reg .r2) = none ∧
    (2#32).toNat ≤ ((sample.setReg .r2 2#32).reg .r2).toNat := by unfold StandardWord; decide
theorem witness_AmendWritesWordOrFaults : StandardWord 2 .r2 .r3 .r4 0x2000009C#32 ∧
    sample.seg.segment (sample.reg .r1) = some ⟨2#32, []⟩ ∧ (sample.reg .r1).toNat < (2#32).toNat ∧
    (sample.setReg .r2 3#32).seg.segment ((sample.setReg .r2 3#32).reg .r2) = none ∧
    (2#32).toNat ≤ ((sample.setReg .r2 2#32).reg .r2).toNat := by unfold StandardWord; decide
/-- A retired handle, and none; a capacity that is just enough: 3 words used and 1 asked for. -/
theorem witness_AllocCreatesZeroSegment : Fits sample.memCapacity (sample.seg.used + (sample.reg .r1).toNat) ∧
    sample.freelist ≠ [] ∧ Fits (some 4) (sample.seg.used + (sample.reg .r1).toNat) ∧
    ({ State.reset with nextHandle := 2 ^ 32 - 1 } : State).nextHandle < 2 ^ 32 :=
  ⟨(fun _ e => by cases e), by decide, (fun _ e => by cases e; decide), by decide⟩
theorem witness_AllocRaisesOutOfMemory : ¬ Fits (some 3) (sample.seg.used + (sample.reg .r1).toNat) ∧
    (({ State.reset with nextHandle := 2 ^ 32 } : State).freelist = [] ∧
      2 ^ 32 ≤ ({ State.reset with nextHandle := 2 ^ 32 } : State).nextHandle) :=
  ⟨fun h => absurd (h 3 rfl) (by decide), by decide⟩
theorem witness_AbandonRetiresHandleOrFaults : StandardWord 9 .r0 .r0 .r2 0x90000002#32 ∧ sample.reg .r1 ≠ 0#32 ∧
    sample.seg.live (sample.reg .r1) = true ∧ sample.reg .r0 = 0#32 ∧
    sample.seg.live ((sample.setReg .r2 2#32).reg .r2) = false := by unfold StandardWord; decide
theorem witness_RetiredHandleFaults : ∃ t, exec (.abandon .r0 .r0 .r1) sample = .next t ∧ t.runState = .running ∧
    t.reg .r1 = sample.reg .r1 := ⟨_, rfl, rfl, rfl⟩
/-- With one handle retired before, and with none. -/
theorem witness_AllocAbandonAllocReusesHandle :
    (sample.freelist.length ≤ 1 ∧ ∃ t u v, exec (.alloc .r0 .r2 .r1) sample = .next t ∧ t.runState = .running ∧
      exec (.abandon .r0 .r0 .r2) t = .next u ∧ u.runState = .running ∧
      exec (.alloc .r0 .r3 .r1) u = .next v ∧ v.runState = .running) ∧
    (State.reset.freelist.length ≤ 1 ∧ ∃ t u v, exec (.alloc .r0 .r2 .r1) State.reset = .next t ∧ t.runState = .running ∧
      exec (.abandon .r0 .r0 .r2) t = .next u ∧ u.runState = .running ∧
      exec (.alloc .r0 .r3 .r1) u = .next v ∧ v.runState = .running) :=
  ⟨⟨by decide, _, _, _, rfl, rfl, rfl, rfl, rfl, rfl⟩, ⟨by decide, _, _, _, rfl, rfl, rfl, rfl, rfl, rfl⟩⟩
theorem witness_SegmentLengthsAreFixed : sample.Inv ∧ ∃ t g', step sample = .next t ∧ (1#32 : Word) ≠ 0#32 ∧
    sample.seg.segment 1#32 = some ⟨2#32, []⟩ ∧ t.seg.segment 1#32 = some g' :=
  ⟨sample_inv, _, _, rfl, by decide, rfl, rfl⟩
theorem witness_AllocatorAndMemoryWriters : (∃ t, exec (.add .r1 .r2 .r3) sample = .next t) ∧
    (∃ t, exec (.alloc .r0 .r2 .r1) sample = .next t) ∧ ∃ t, exec (.abandon .r0 .r0 .r1) sample = .next t :=
  ⟨⟨_, rfl⟩, ⟨_, rfl⟩, _, rfl⟩

theorem witness_HaltEndsTheRun : StandardWord 7 .r3 .r6 .r0 0x7ABCDEF0#32 := by unfold StandardWord; decide
/-- The largest byte and the smallest value that is none. -/
theorem witness_OutputEmitsByteOrFaults : StandardWord 10 .r7 .r7 .r7 0xA00001FF#32 ∧
    ((sample.setReg .r2 255#32).reg .r2).toNat ≤ 255 ∧ sample.sinkAcks ≠ some 0 ∧
    255 < ((sample.setReg .r2 256#32).reg .r2).toNat := by unfold StandardWord; decide
/-- An Input with no answer, and an Output whose sink does not acknowledge. -/
theorem witness_WaitingChangesNothing : (program [0xB0000001#32]).runState = .running ∧
    (program [0xB0000001#32]).seg.segment 0#32 = some (Segment.ofWords [0xB0000001#32]) ∧
    (program [0xB0000001#32]).pc.toNat < (Segment.ofWords [0xB0000001#32]).len.toNat ∧
    decode ((Segment.ofWords [0xB0000001#32]).get (program [0xB0000001#32]).pc) = .instr (.input .r0 .r0 .r1) ∧
    Waits (.input .r0 .r0 .r1) (program [0xB0000001#32]) ∧
    decode ((Segment.ofWords [0xA0000001#32]).get (program [0xA0000001#32]).pc) = .instr (.output .r0 .r0 .r1) ∧
    Waits (.output .r0 .r0 .r1) { program [0xA0000001#32] with sinkAcks := some 0 } := by
  unfold Waits; decide
theorem witness_WaitEndsWithTheAnswer : Waits (.input .r0 .r0 .r1) (program [0xB0000001#32]) ∧
    Waits (.output .r0 .r0 .r1) { program [0xA0000001#32] with sinkAcks := some 0 } ∧
    ({ program [0xA0000001#32] with sinkAcks := some 0 } : State).fetch = .ok 0xA0000001#32 ∧
    (program [0xB0000001#32]).fetch = .ok 0xB0000001#32 := by
  unfold Waits; decide
/-- A queued byte; an empty line; the end of input; the latched end. -/
theorem witness_InputDeliversNextByte : StandardWord 11 .r0 .r0 .r1 0xB0000001#32 ∧
    ({ sample with pendingInput := [7#8] } : State).pendingInput = 7#8 :: [] ∧
    sample.pendingInput = [] ∧ sample.eofLatch = false ∧
    ({ sample with lineIn := [.line []] } : State).lineIn = .line [] :: [] ∧
    ({ sample with lineIn := [.endOfInput] } : State).lineIn = .endOfInput :: [] ∧
    ({ sample with eofLatch := true } : State).eofLatch = true := by unfold StandardWord; decide
theorem witness_LineIsDeliveredByteByByte : ({ sample with lineIn := [.line []] } : State).pendingInput = [] ∧
    ({ sample with lineIn := [.line []] } : State).eofLatch = false ∧
    ({ sample with lineIn := [.line []] } : State).lineIn = .line [] :: [] := by decide
theorem witness_EndOfInputIsForever : ({ sample with eofLatch := true } : State).pendingInput = [] ∧
    ({ sample with eofLatch := true } : State).eofLatch = true := by decide
theorem witness_EofLatchIsNeverCleared : ∃ t, step { program [0xB0000001#32] with eofLatch := true } = .next t := ⟨_, rfl⟩
theorem witness_ChannelOrderIsProgramOrder :
    (∃ t, step sample = .next t) ∧
    (∃ t, exec (.output .r0 .r0 .r1) sample = .next t ∧ t.channel = sample.channel ++ [.byteWritten 1#8]) ∧
    (∃ t, exec (.input .r0 .r0 .r1) { sample with lineIn := [.endOfInput] } = .next t ∧
      t.channel = sample.channel ++ [.lineTaken .endOfInput]) :=
  ⟨⟨_, rfl⟩, ⟨_, rfl, rfl⟩, _, rfl, rfl⟩
theorem witness_LineSourceSeenOnlyWhenAsked : ({ sample with pendingInput := [7#8] } : State).pendingInput ≠ [] ∧
    (∃ t, exec (.input .r0 .r0 .r1) { sample with pendingInput := [7#8] } = .next t) ∧
    ∃ t, exec (.add .r1 .r2 .r3) sample = .next t := ⟨by decide, ⟨_, rfl⟩, _, rfl⟩
/-- Handle 0; a live handle, under a capacity that is just enough for the copy (4 words); a handle that is not live; a capacity one
word too small. -/
theorem witness_LoadProgramCopiesAndJumps : StandardWord 12 .r0 .r2 .r0 0xC0000010#32 ∧ sample.reg .r0 = 0#32 ∧
    sample.reg .r1 ≠ 0#32 ∧ sample.seg.segment (sample.reg .r1) = some ⟨2#32, []⟩ ∧
    sample.seg.used - sample.seg.lenOf 0#32 + (2#32).toNat = 4 ∧ Fits (some 4) 4 ∧ ¬ Fits (some 3) 4 ∧
    sample.seg.segment ((sample.setReg .r2 3#32).reg .r2) = none :=
  ⟨by unfold StandardWord; decide, by decide, by decide, by decide, by decide, fun _ e => by cases e; decide,
    fun h => absurd (h 3 rfl) (by decide), by decide⟩
theorem witness_NextFetchSeesTheWrite :
    (∃ t, exec (.amend .r0 .r0 .r1) sample = .next t ∧ t.runState = .running ∧ sample.reg .r0 = 0#32 ∧
      sample.reg .r0 = sample.pc) ∧
    ∃ t, exec (.loadprog .r0 .r1 .r0) sample = .next t ∧ t.runState = .running ∧ sample.reg .r1 ≠ 0#32 :=
  ⟨⟨_, rfl, rfl, rfl, rfl⟩, _, rfl, rfl, by decide⟩

end Sys2Proof.Tests
end

section
/-! PROOFS. What one executed instruction does to memory, to the allocator, to the registers and to the input state, and what one
step can do: each said once, from the cases of `exec`. -/

namespace Sys2Proof.Machine

/-- A step that answers a next state raised a fault before the advance of the pc, or ran one case of `exec` after it. -/
theorem step_eq_next_exec {s t : State} (h : step s = .next t) :
    s.runState = .running ∧
      ((∃ f, f ≠ .noFault ∧ t = { s with runState := .faulted, faultReason := f }) ∨ ∃ i, ExecCase i s.advance t) := by
  obtain ⟨hr, ⟨f, hf, ht⟩ | ⟨_, _, _, _, ht⟩ | ⟨_, i, _, _, ht⟩⟩ := step_eq_next_cases h
  · have ne : f ≠ .noFault := by rw [(State.fetch_eq_error.1 hf).1]; decide
    exact ⟨hr, .inl ⟨f, ne, raise_eq_next.1 ht⟩⟩
  · exact ⟨hr, .inl ⟨_, by decide, raise_eq_next.1 ht⟩⟩
  · exact ⟨hr, .inr ⟨i, exec_eq_next_cases ht⟩⟩

/-- Allocation changes memory, FREELIST and NEXT_HANDLE only; memory gains one zero segment. -/
theorem State.allocate_frame {s t : State} {n h : Word} (e : s.allocate n = .ok (h, t)) :
    t.regs = s.regs ∧ t.seg = s.seg.put h (.zeros n) ∧ SameStatus s t ∧ SameInput s t ∧ SameOutput s t ∧
      t.memCapacity = s.memCapacity := by
  obtain ⟨_, ⟨_, _, rfl⟩ | ⟨_, _, _, rfl⟩⟩ := State.allocate_eq_ok.1 e
  · exact ⟨rfl, rfl, ⟨rfl, rfl⟩, ⟨rfl, rfl, rfl⟩, ⟨rfl, rfl⟩, rfl⟩
  · exact ⟨rfl, rfl, ⟨rfl, rfl⟩, ⟨rfl, rfl, rfl⟩, ⟨rfl, rfl⟩, rfl⟩

namespace ExecCase
variable {i : Instr} {s t : State}

/-- Memory after one instruction: as it was, or changed by one of its four writers (20_memory.md R51). -/
theorem seg_cases (h : ExecCase i s t) :
    t.seg = s.seg ∨
      (∃ a b c g, i = .amend a b c ∧ s.seg.segment (s.reg a) = some g ∧
        t.seg = s.seg.put (s.reg a) (g.set (s.reg b) (s.reg c))) ∨
      (∃ a b c k u, i = .alloc a b c ∧ s.allocate (s.reg c) = .ok (k, u) ∧
        t.seg = s.seg.put k (.zeros (s.reg c))) ∨
      (∃ a b c, i = .abandon a b c ∧ t.seg = s.seg.remove (s.reg c)) ∨
      (∃ a b c g, i = .loadprog a b c ∧ t.seg = s.seg.put 0#32 g) := by
  cases h with
  | raised | waits | notMoved | setReg | halt | jump => exact .inl rfl
  | amend a b c _ m hw =>
    obtain ⟨g, hg, _, rfl⟩ := Memory.write_eq_ok.1 hw
    exact .inr (.inl ⟨a, b, c, g, rfl, hg, rfl⟩)
  | alloc a b c _ k u ha =>
    obtain ⟨-, hseg, -⟩ := State.allocate_frame ha
    exact .inr (.inr (.inl ⟨a, b, c, k, u, rfl, ha, hseg⟩))
  | abandon a b c _ _ hf =>
    obtain ⟨_, _, rfl⟩ := State.free_eq_ok.1 hf
    exact .inr (.inr (.inr (.inl ⟨a, b, c, rfl, rfl⟩)))
  | output a b c _ _ _ hw =>
    obtain ⟨_, rfl⟩ := State.writeFlush_eq_some.1 hw
    exact .inl rfl
  | input a b c _ u hu =>
    obtain ⟨-, -, -, -, hseg, -⟩ := State.refill_frame hu
    obtain ⟨-, -, -, hseg', -⟩ := State.takeByte_frame c u
    exact .inl (hseg'.trans hseg)
  | load a b c _ _ _ hp =>
    obtain ⟨g, _, _, rfl⟩ := State.replaceProgram_eq_ok.1 hp
    exact .inr (.inr (.inr (.inr ⟨a, b, c, g, rfl, rfl⟩)))

/-- FREELIST and NEXT_HANDLE after one instruction: as they were, or moved by Allocation or Abandonment (10_state.md R30, R31). -/
theorem allocator_cases (h : ExecCase i s t) :
    SameAllocator s t ∨
      (∃ a b c, i = .alloc a b c ∧
        ((t.nextHandle = s.nextHandle ∧ ∃ k, s.freelist = k :: t.freelist) ∨
          (t.nextHandle = s.nextHandle + 1 ∧ t.freelist = s.freelist))) ∨
      (∃ a b c, i = .abandon a b c ∧ t.nextHandle = s.nextHandle ∧ t.freelist = s.freelist ++ [s.reg c]) := by
  cases h with
  | raised | waits | notMoved | setReg | amend | halt | jump => exact .inl ⟨rfl, rfl⟩
  | alloc a b c _ k u ha =>
    refine .inr (.inl ⟨a, b, c, rfl, ?_⟩)
    obtain ⟨_, ⟨_, hfree, rfl⟩ | ⟨_, _, _, rfl⟩⟩ := State.allocate_eq_ok.1 ha
    · exact .inl ⟨rfl, k, hfree⟩
    · exact .inr ⟨rfl, rfl⟩
  | abandon a b c _ _ hf =>
    obtain ⟨_, _, rfl⟩ := State.free_eq_ok.1 hf
    exact .inr (.inr ⟨a, b, c, rfl, rfl, rfl⟩)
  | output a b c _ _ _ hw =>
    obtain ⟨_, rfl⟩ := State.writeFlush_eq_some.1 hw
    exact .inl ⟨rfl, rfl⟩
  | input a b c _ u hu =>
    obtain ⟨-, -, -, -, -, hfree, hnext, -⟩ := State.refill_frame hu
    obtain ⟨-, -, -, -, hfree', hnext', -⟩ := State.takeByte_frame c u
    exact .inl ⟨hfree'.trans hfree, hnext'.trans hnext⟩
  | load a b c _ _ _ hp =>
    obtain ⟨_, _, _, rfl⟩ := State.replaceProgram_eq_ok.1 hp
    exact .inl ⟨rfl, rfl⟩

/-- The registers after one instruction: only those that 10_state.md R20 lists for it have changed. -/
theorem sameRegsBut (h : ExecCase i s t) : SameRegsBut (Writes i s) s t := by
  intro r hr
  cases h with
  | raised | waits | notMoved | amend | halt | jump => rfl
  | setReg _ _ a v hw => exact State.reg_setReg_other s v fun e => hr (e ▸ hw)
  | alloc a b c _ k u ha =>
    obtain ⟨hregs, -⟩ := State.allocate_frame ha
    calc (u.setReg b k).reg r = u.reg r := State.reg_setReg_other u k hr
      _ = s.reg r := congrArg (·.get r) hregs
  | abandon a b c _ _ hf =>
    obtain ⟨_, _, rfl⟩ := State.free_eq_ok.1 hf
    rfl
  | output a b c _ _ _ hw =>
    obtain ⟨_, rfl⟩ := State.writeFlush_eq_some.1 hw
    rfl
  | input a b c _ u hu =>
    obtain ⟨hregs, -⟩ := State.refill_frame hu
    obtain ⟨-, -, -, -, -, -, -, -, -, -, -, v, hregs'⟩ := State.takeByte_frame c u
    calc (u.takeByte c).reg r = (u.regs.set c v).get r := congrArg (·.get r) hregs'
      _ = u.regs.get r := Regs.get_set_other u.regs v hr
      _ = s.reg r := congrArg (·.get r) hregs
  | load a b c _ _ _ hp =>
    obtain ⟨_, _, _, rfl⟩ := State.replaceProgram_eq_ok.1 hp
    rfl

/-- The input state after one instruction: as it was, or what Input makes of it. -/
theorem input_cases (h : ExecCase i s t) :
    SameInput s t ∨ ∃ a b c u, i = .input a b c ∧ s.refill = some u ∧ t = u.takeByte c := by
  cases h with
  | raised | waits | notMoved | setReg | amend | halt | jump => exact .inl ⟨rfl, rfl, rfl⟩
  | alloc a b c _ k u ha =>
    obtain ⟨-, -, -, hinput, -⟩ := State.allocate_frame ha
    exact .inl hinput
  | abandon a b c _ _ hf =>
    obtain ⟨_, _, rfl⟩ := State.free_eq_ok.1 hf
    exact .inl ⟨rfl, rfl, rfl⟩
  | output a b c _ _ _ hw =>
    obtain ⟨_, rfl⟩ := State.writeFlush_eq_some.1 hw
    exact .inl ⟨rfl, rfl, rfl⟩
  | input a b c _ u hu => exact .inr ⟨a, b, c, u, rfl, hu, rfl⟩
  | load a b c _ _ _ hp =>
    obtain ⟨_, _, _, rfl⟩ := State.replaceProgram_eq_ok.1 hp
    exact .inl ⟨rfl, rfl, rfl⟩

/-- At the latched end of input no instruction asks the line source or clears the latch. -/
theorem eofLatch_kept (h : ExecCase i s t) (he : s.eofLatch = true) : t.eofLatch = true ∧ t.lineIn = s.lineIn := by
  rcases h.input_cases with ⟨-, hlatch, hline⟩ | ⟨_, _, c, u, -, hu, rfl⟩
  · exact ⟨hlatch.trans he, hline⟩
  · have hus : u = s := by
      rcases State.refill_eq_some.1 hu with ⟨_, hn, _⟩ | ⟨_, hus⟩
      · exact absurd (he.symm.trans hn) (by decide)
      · exact hus
    subst hus
    obtain ⟨-, -, -, -, -, -, -, -, hlatch, hline, -⟩ := State.takeByte_frame c u
    exact ⟨hlatch.trans he, hline⟩

end ExecCase

end Sys2Proof.Machine
end

section
/-! PROOFS. The invariant of a run: the handle invariant under Allocation and Abandonment, then every operation keeps the whole
invariant, and Init meets it. -/

namespace Sys2Proof.Machine

/-- What fits the capacity still fits with fewer words. -/
theorem overCapacity_mono {cap : Option Nat} {m n : Nat} (h : m ≤ n) (hn : overCapacity cap n = false) :
    overCapacity cap m = false := by
  cases cap with
  | none => rfl
  | some limit =>
    have hn : ¬ limit < n := of_decide_eq_false hn
    exact decide_eq_false (by omega)

/-- The words of a live segment are among the words in use. -/
theorem Memory.len_le_used {m : Memory} (hm : m.wf = true) {h : Word} {g : Segment} (hg : m.segment h = some g) :
    g.len.toNat ≤ m.used := by
  have emptied : (m.put h (.zeros 0#32)).used + g.len.toNat = 0 + m.used := Memory.used_put_old (.zeros 0#32) hg hm
  omega

/-- A number below the handle space is a handle. -/
theorem toNat_ofNat_of_lt_handleSpace {n : Nat} (h : n < Config.handleSpace) : (BitVec.ofNat 32 n).toNat = n :=
  Nat.mod_eq_of_lt h

namespace HandleInv
variable {s t : State}

/-- The handle invariant looks at which handles are live, at FREELIST and at NEXT_HANDLE only. -/
theorem of_live (hs : HandleInv s) (hlive : ∀ h, t.seg.live h = s.seg.live h) (halloc : SameAllocator s t) :
    HandleInv t := by
  obtain ⟨hfree, hnext⟩ := halloc
  exact
    { zeroLive := (hlive _).trans hs.zeroLive
      nextRange := by rw [hnext]; exact hs.nextRange
      issued := by simpa only [hlive, hfree, hnext] using hs.issued
      fresh := by simpa only [hlive, hfree, hnext] using hs.fresh
      noRepeats := by rw [hfree]; exact hs.noRepeats
      neverZero := by rw [hfree]; exact hs.neverZero }

/-- A retired handle was issued. -/
theorem issued_of_mem_freelist (hs : HandleInv s) {h : Word} (hm : h ∈ s.freelist) :
    1 ≤ h.toNat ∧ h.toNat < s.nextHandle := by
  constructor
  · have h0 : h ≠ 0#32 := fun e => hs.neverZero (e ▸ hm)
    have : h.toNat ≠ 0 := fun e => h0 (BitVec.eq_of_toNat_eq e)
    omega
  · exact Nat.lt_of_not_le fun hn => (hs.fresh h hn).2 hm

/-- A retired handle is not live. -/
theorem not_live_of_mem_freelist (hs : HandleInv s) {h : Word} (hm : h ∈ s.freelist) : s.seg.live h = false := by
  obtain ⟨h1, h2⟩ := hs.issued_of_mem_freelist hm
  exact Bool.eq_false_iff.2 fun hl => (hs.issued h h1 h2).1 hl hm

/-- A live handle other than 0 was issued and is not retired. -/
theorem issued_of_live (hs : HandleInv s) {h : Word} (h0 : h ≠ 0#32) (hl : s.seg.live h = true) :
    1 ≤ h.toNat ∧ h.toNat < s.nextHandle ∧ h ∉ s.freelist := by
  have hm : h ∉ s.freelist := fun hm => by simp [hs.not_live_of_mem_freelist hm] at hl
  have hn : h.toNat ≠ 0 := fun e => h0 (BitVec.eq_of_toNat_eq e)
  refine ⟨by omega, Nat.lt_of_not_le fun hn => ?_, hm⟩
  simp [(hs.fresh h hn).1] at hl

/-- The handle that Allocation answers was not live. -/
theorem allocate_not_live (hs : HandleInv s) {n h : Word} (e : s.allocate n = .ok (h, t)) : s.seg.live h = false := by
  obtain ⟨_, ⟨rest, hfree, _⟩ | ⟨_, hn, rfl, _⟩⟩ := State.allocate_eq_ok.1 e
  · exact hs.not_live_of_mem_freelist (by simp [hfree])
  · exact (hs.fresh _ (toNat_ofNat_of_lt_handleSpace hn).ge).1

/-- Taking the oldest retired handle back into use keeps the handle invariant. -/
theorem reuse (hs : HandleInv s) {h : Word} {rest : List Word} (hfree : s.freelist = h :: rest) (g : Segment) :
    HandleInv { s with freelist := rest, seg := s.seg.put h g } := by
  obtain ⟨hrest, hnodup⟩ := List.nodup_cons.1 (hfree ▸ hs.noRepeats)
  refine ⟨(Memory.live_put ..).2 (.inr hs.zeroLive), hs.nextRange, fun k h1 h2 => ?_, fun k hk => ?_, hnodup, ?_⟩
  · have hi : s.seg.live k = true ↔ k ∉ h :: rest := hfree ▸ hs.issued k h1 h2
    rw [Memory.live_put, hi, List.mem_cons]
    by_cases e : k = h
    · simp [e, hrest]
    · simp [e]
  · obtain ⟨hl, hm⟩ := hs.fresh k hk
    rw [hfree, List.mem_cons, not_or] at hm
    refine ⟨Bool.eq_false_iff.2 fun hp => ?_, hm.2⟩
    rcases (Memory.live_put ..).1 hp with e | e
    · exact hm.1 e
    · simp [hl] at e
  · exact fun h0 => hs.neverZero (by simp [hfree, h0])

/-- Issuing NEXT_HANDLE while nothing is retired keeps the handle invariant. -/
theorem issue (hs : HandleInv s) (hfree : s.freelist = []) (hn : s.nextHandle < Config.handleSpace) (g : Segment) :
    HandleInv
      { s with nextHandle := s.nextHandle + 1, seg := s.seg.put (BitVec.ofNat 32 s.nextHandle) g } := by
  have hnum : (BitVec.ofNat 32 s.nextHandle).toNat = s.nextHandle := toNat_ofNat_of_lt_handleSpace hn
  obtain ⟨h1, -⟩ := hs.nextRange
  refine ⟨(Memory.live_put ..).2 (.inr hs.zeroLive), ⟨by simp only; omega, hn⟩, fun k hk1 hk2 => ?_, fun k hk => ?_,
    hs.noRepeats, hs.neverZero⟩
  · have hk2 : k.toNat < s.nextHandle + 1 := hk2
    have hm : k ∉ s.freelist := by simp [hfree]
    rw [Memory.live_put]
    refine ⟨fun _ => hm, fun _ => ?_⟩
    by_cases e : k.toNat = s.nextHandle
    · exact .inl (BitVec.eq_of_toNat_eq (e.trans hnum.symm))
    · exact .inr ((hs.issued k hk1 (by omega)).2 hm)
  · have hk : s.nextHandle + 1 ≤ k.toNat := hk
    obtain ⟨hl, hm⟩ := hs.fresh k (by omega)
    refine ⟨Bool.eq_false_iff.2 fun hp => ?_, hm⟩
    rcases (Memory.live_put ..).1 hp with e | e
    · rw [e, hnum] at hk; omega
    · simp [hl] at e

/-- Retiring a live handle other than 0 keeps the handle invariant. -/
theorem retire (hs : HandleInv s) {h : Word} (h0 : h ≠ 0#32) (hl : s.seg.live h = true) :
    HandleInv { s with seg := s.seg.remove h, freelist := s.freelist ++ [h] } := by
  obtain ⟨-, hh, hm⟩ := hs.issued_of_live h0 hl
  refine ⟨(Memory.live_remove ..).2 ⟨h0.symm, hs.zeroLive⟩, hs.nextRange, fun k h1 h2 => ?_, fun k hk => ?_, ?_, ?_⟩
  · rw [Memory.live_remove, hs.issued k h1 h2, List.mem_append, List.mem_singleton, not_or, and_comm]
  · have hk : s.nextHandle ≤ k.toNat := hk
    obtain ⟨hkl, hkm⟩ := hs.fresh k hk
    have hne : k ≠ h := fun e => by rw [e] at hk; omega
    exact ⟨Bool.eq_false_iff.2 fun hp => by simp [hkl, Memory.live_remove] at hp, by simp [hkm, hne]⟩
  · exact List.nodup_append'.2 ⟨hs.noRepeats, List.nodup_singleton h, by simpa using hm⟩
  · simp [hs.neverZero, h0.symm]

/-- The handles of a memory that holds segment 0 alone, with nothing issued yet. -/
theorem initial {g : Segment} (hseg : s.seg = [(0, g)]) (hfree : s.freelist = []) (hnext : s.nextHandle = 1) :
    HandleInv s := by
  refine ⟨by simp [hseg, Memory.live, Memory.segment, Assoc.find], by simp [hnext, Config.handleSpace],
    fun h h1 h2 => by omega, fun h hh => ⟨?_, by simp [hfree]⟩, by simp [hfree], by simp [hfree]⟩
  have hne : h.toNat ≠ 0 := by omega
  simp [hseg, Memory.live, Memory.segment, Assoc.find, hne]

end HandleInv

namespace State.Inv
variable {s t : State}

/-- The invariant survives a change of what it does not look at, and of the input state while nothing is queued at the end. -/
theorem of_same (hs : s.Inv) (hseg : t.seg = s.seg) (halloc : SameAllocator s t) (hstatus : SameStatus s t)
    (hcap : t.memCapacity = s.memCapacity) (hended : t.eofLatch = true → t.pendingInput = []) : t.Inv where
  memory := hseg ▸ hs.memory
  handles := hs.handles.of_live (fun _ => by rw [hseg]) halloc
  reason := by rw [hstatus.1, hstatus.2]; exact hs.reason
  capacity := by rw [hcap, hseg]; exact hs.capacity
  ended := hended

theorem setReg (hs : s.Inv) (r : Reg) (v : Word) : (s.setReg r v).Inv :=
  hs.of_same rfl ⟨rfl, rfl⟩ ⟨rfl, rfl⟩ rfl hs.ended

theorem withPc (hs : s.Inv) (p : Word) : ({ s with pc := p } : State).Inv :=
  hs.of_same rfl ⟨rfl, rfl⟩ ⟨rfl, rfl⟩ rfl hs.ended

theorem advance (hs : s.Inv) : s.advance.Inv := hs.withPc _

/-- Raising a fault keeps the invariant. -/
theorem raised (hs : s.Inv) {f : FaultReason} (hf : f ≠ .noFault) :
    ({ s with runState := .faulted, faultReason := f } : State).Inv where
  memory := hs.memory
  handles := hs.handles.of_live (fun _ => rfl) ⟨rfl, rfl⟩
  reason := by simp [hf]
  capacity := hs.capacity
  ended := hs.ended

/-- Halting a running machine keeps the invariant. -/
theorem halted (hs : s.Inv) (hr : s.runState = .running) : ({ s with runState := .halted } : State).Inv where
  memory := hs.memory
  handles := hs.handles.of_live (fun _ => rfl) ⟨rfl, rfl⟩
  reason := by simpa [hr] using hs.reason
  capacity := hs.capacity
  ended := hs.ended

/-- Giving a live handle another segment that fits keeps the invariant. -/
theorem put_live (hs : s.Inv) {h : Word} {g old : Segment} (hold : s.seg.segment h = some old) (hg : g.wf = true)
    (hcap : overCapacity s.memCapacity (s.seg.used - old.len.toNat + g.len.toNat) = false) :
    ({ s with seg := s.seg.put h g } : State).Inv where
  memory := Memory.wf_put h hs.memory hg
  handles := by
    refine hs.handles.of_live (fun k => ?_) ⟨rfl, rfl⟩
    have hl : s.seg.live h = true := (Memory.live_iff ..).2 ⟨old, hold⟩
    refine Bool.eq_iff_iff.2 ((Memory.live_put ..).trans ⟨?_, .inr⟩)
    rintro (rfl | hk)
    · exact hl
    · exact hk
  reason := hs.reason
  capacity := by
    have used : (s.seg.put h g).used + old.len.toNat = g.len.toNat + s.seg.used :=
      Memory.used_put_old g hold hs.memory
    exact overCapacity_mono (by simp only; omega) hcap
  ended := hs.ended

/-- Writing a word in place keeps the invariant. -/
theorem write (hs : s.Inv) {h i v : Word} {m : Memory} (e : s.seg.write h i v = .ok m) :
    ({ s with seg := m } : State).Inv := by
  obtain ⟨g, hg, hi, rfl⟩ := Memory.write_eq_ok.1 e
  have used : s.seg.used - g.len.toNat + g.len.toNat = s.seg.used :=
    Nat.sub_add_cancel (Memory.len_le_used hs.memory hg)
  exact hs.put_live hg (Segment.wf_set v (Memory.wf_segment hs.memory hg) hi) (by rw [Segment.len_set, used, hs.capacity])

/-- Allocation keeps the invariant. -/
theorem allocate (hs : s.Inv) {n h : Word} (e : s.allocate n = .ok (h, t)) : t.Inv := by
  have hnew : s.seg.segment h = none := (Memory.live_eq_false_iff ..).1 (hs.handles.allocate_not_live e)
  have hwf : (s.seg.put h (.zeros n)).wf = true := Memory.wf_put h hs.memory (Segment.wf_zeros n)
  have hused : (s.seg.put h (.zeros n)).used = s.seg.used + n.toNat := by
    rw [Memory.used_put_new _ hnew, Segment.len_zeros, Nat.add_comm]
  obtain ⟨hcap, halloc⟩ := State.allocate_eq_ok.1 e
  rw [← hused] at hcap
  rcases halloc with ⟨rest, hfree, rfl⟩ | ⟨hfree, hn, rfl, rfl⟩
  · exact ⟨hwf, hs.handles.reuse hfree _, hs.reason, hcap, hs.ended⟩
  · exact ⟨hwf, hs.handles.issue hfree hn _, hs.reason, hcap, hs.ended⟩

/-- Abandonment keeps the invariant. -/
theorem free (hs : s.Inv) {h : Word} (e : s.free h = .ok t) : t.Inv := by
  obtain ⟨h0, hl, rfl⟩ := State.free_eq_ok.1 e
  exact ⟨Memory.wf_remove h hs.memory, hs.handles.retire h0 hl, hs.reason,
    overCapacity_mono (Memory.used_remove_le ..) hs.capacity, hs.ended⟩

/-- Replacing the program keeps the invariant. -/
theorem replaceProgram (hs : s.Inv) {h : Word} (e : s.replaceProgram h = .ok t) : t.Inv := by
  obtain ⟨g, hg, hcap, rfl⟩ := State.replaceProgram_eq_ok.1 e
  obtain ⟨old, hold⟩ := (Memory.live_iff ..).1 hs.handles.zeroLive
  rw [Memory.lenOf_eq hold] at hcap
  exact hs.put_live hold (Memory.wf_segment hs.memory hg) hcap

/-- Writing a byte on BYTE-OUT keeps the invariant. -/
theorem writeFlush (hs : s.Inv) {b : Byte} (e : s.writeFlush b = some t) : t.Inv := by
  obtain ⟨_, rfl⟩ := State.writeFlush_eq_some.1 e
  exact hs.of_same rfl ⟨rfl, rfl⟩ ⟨rfl, rfl⟩ rfl hs.ended

/-- Asking for a line keeps the invariant: a line is queued only while the end is not latched, and the end is latched only while
nothing is queued. -/
theorem refill (hs : s.Inv) (e : s.refill = some t) : t.Inv := by
  obtain ⟨-, -, hrun, hreason, hseg, hfree, hnext, -, hcap⟩ := State.refill_frame e
  refine hs.of_same hseg ⟨hfree, hnext⟩ ⟨hrun, hreason⟩ hcap ?_
  rcases State.refill_eq_some.1 e with ⟨hempty, hopen, answer, rest, _, rfl⟩ | ⟨_, rfl⟩
  · cases answer with
    | line bytes => exact fun hl => absurd (hopen.symm.trans hl) (by decide)
    | endOfInput => exact fun _ => hempty
  · exact hs.ended

/-- Taking a byte keeps the invariant. -/
theorem takeByte (hs : s.Inv) (c : Reg) : (s.takeByte c).Inv := by
  cases hp : s.pendingInput with
  | nil =>
    rw [State.takeByte_nil c hp]
    exact hs.setReg c _
  | cons b rest =>
    rw [State.takeByte_cons c hp]
    refine hs.of_same rfl ⟨rfl, rfl⟩ ⟨rfl, rfl⟩ rfl fun hl => ?_
    exact absurd (hp.symm.trans (hs.ended hl)) (List.cons_ne_nil b rest)

/-- Whatever a running instruction does keeps the invariant. -/
theorem execCase (hs : s.Inv) (hr : s.runState = .running) {i : Instr} (h : ExecCase i s t) : t.Inv := by
  cases h with
  | raised _ _ f hf => exact hs.raised hf
  | waits => exact hs.withPc _
  | notMoved => exact hs
  | setReg _ _ a v => exact hs.setReg a v
  | amend a b c _ m hw => exact hs.write hw
  | alloc a b c _ k u ha => exact (hs.allocate ha).setReg b k
  | abandon a b c _ _ hf => exact hs.free hf
  | halt => exact hs.halted hr
  | output a b c _ _ _ hw => exact hs.writeFlush hw
  | input a b c _ u hu => exact (hs.refill hu).takeByte c
  | jump => exact hs.withPc _
  | load a b c _ _ _ hp => exact (hs.replaceProgram hp).withPc _

/-- A step keeps the invariant. -/
theorem step (hs : s.Inv) (h : Machine.step s = .next t) : t.Inv := by
  obtain ⟨hr, ⟨f, hf, rfl⟩ | ⟨i, hi⟩⟩ := step_eq_next_exec h
  · exact hs.raised hf
  · exact hs.advance.execCase hr hi

/-- What the sink does is not looked at. -/
theorem withSinkAcks (hs : s.Inv) (acks : Option Nat) : ({ s with sinkAcks := acks } : State).Inv :=
  hs.of_same rfl ⟨rfl, rfl⟩ ⟨rfl, rfl⟩ rfl hs.ended

theorem lineAnswered (hs : s.Inv) (answer : LineAnswer) : (s.lineAnswered answer).Inv :=
  hs.of_same rfl ⟨rfl, rfl⟩ ⟨rfl, rfl⟩ rfl hs.ended

theorem sinkAcknowledges (hs : s.Inv) : s.sinkAcknowledges.Inv := hs.withSinkAcks _

end State.Inv

/-! ### Init -/

/-- A program has one word for each four bytes. -/
theorem programWords_length (p : List Byte) : (programWords p).length = p.length / 4 := by
  induction p using programWords.induct with
  | case1 b0 b1 b2 b3 rest ih =>
    simp only [programWords, List.length_cons, ih]
    omega
  | case2 p hp =>
    rw [programWords.eq_2 p hp, List.length_nil]
    rcases p with _ | ⟨b0, _ | ⟨b1, _ | ⟨b2, _ | ⟨b3, rest⟩⟩⟩⟩
    · rfl
    · simp
    · simp
    · simp
    · exact absurd rfl (hp b0 b1 b2 b3 rest)

/-- A program loads when its length is a multiple of 4 and its words fit a segment and the capacity. -/
theorem loadFails_eq_false {cap : Option Nat} {p : List Byte} :
    loadFails cap p = false ↔
      p.length % 4 = 0 ∧ p.length / 4 ≤ Config.maxSegWords ∧ overCapacity cap (p.length / 4) = false := by
  simp [loadFails, and_assoc]

/-- A memory that holds a canonical segment 0 alone has the canonical form. -/
theorem Memory.wf_singleton {g : Segment} (hg : g.wf = true) : Memory.wf [(0, g)] = true := by
  simp [Memory.wf, hg, Config.handleSpace]

/-- A failed load leaves the reset state, faulted, under the capacity. -/
theorem State.init_of_loadFails {cap : Option Nat} {p : List Byte} (h : loadFails cap p = true) :
    State.init cap p =
      { State.reset with memCapacity := cap, runState := .faulted, faultReason := .loadError } :=
  if_pos h

/-- A load that does not fail leaves the reset state with the program in segment 0, under the capacity. -/
theorem State.init_of_loads {cap : Option Nat} {p : List Byte} (h : loadFails cap p = false) :
    State.init cap p = { State.reset with memCapacity := cap, seg := [(0, Segment.ofWords (programWords p))] } :=
  if_neg (by simp [h])

/-- After reset FAULT_REASON agrees with RUNSTATE. -/
theorem State.reset_reason : State.reset.faultReason = .noFault ↔ State.reset.runState ≠ .faulted := by decide

/-- Every program's Init meets the invariant, whether or not the program loads. -/
theorem State.init_inv (cap : Option Nat) (p : List Byte) : (State.init cap p).Inv := by
  cases h : loadFails cap p with
  | true =>
    rw [State.init_of_loadFails h]
    have hcap : overCapacity cap 0 = false := by cases cap <;> rfl
    exact ⟨Memory.wf_reset, .initial rfl rfl rfl, by simp, hcap, fun _ => rfl⟩
  | false =>
    rw [State.init_of_loads h]
    obtain ⟨-, hmax, hcap⟩ := loadFails_eq_false.1 h
    have hlen : (programWords p).length < 2 ^ 32 := by
      rw [programWords_length]
      exact Nat.lt_succ_of_le hmax
    refine ⟨Memory.wf_singleton (Segment.wf_ofWords hlen), .initial rfl rfl rfl, State.reset_reason, ?_, fun _ => rfl⟩
    simpa only [Memory.used, Nat.add_zero, Segment.len_ofWords hlen, programWords_length] using hcap

/-- The reset state is Init of the empty program under no capacity (log 6). -/
theorem State.reset_eq_init : State.reset = State.init none [] := rfl

/-- Every register and the pc are 0 after Init. -/
theorem State.init_regs (cap : Option Nat) (p : List Byte) :
    (State.init cap p).regs = State.reset.regs ∧ (State.init cap p).pc = 0#32 := by
  cases h : loadFails cap p with
  | true => rw [State.init_of_loadFails h]; exact ⟨rfl, rfl⟩
  | false => rw [State.init_of_loads h]; exact ⟨rfl, rfl⟩

theorem State.reset_reg (r : Reg) : State.reset.reg r = 0#32 := by cases r <;> rfl

end Sys2Proof.Machine
end

section
/-! PROOFS. The statements about the state of the block (10_state.md), assembled from the lemmas above. -/

namespace Sys2Proof

/-- The 3-bit number of a register reaches it (30_encoding.md R89). -/
theorem Reg.ofBits_number (r : Reg) : Reg.ofBits (BitVec.ofNat 3 r.number) = r :=
  Reg.number_inj ((Reg.number_ofBits _).trans (Nat.mod_eq_of_lt (Laws.TableMatch.number_lt r)))

end Sys2Proof

namespace Sys2Proof.Machine

/-- The codes of RUNSTATE are 0, 1 and 2. -/
theorem RunState.code_eq (r : RunState) :
    (r.code = 0#2 ↔ r = .running) ∧ (r.code = 1#2 ↔ r = .halted) ∧ (r.code = 2#2 ↔ r = .faulted) ∧ r.code ≠ 3#2 := by
  cases r <;> decide

/-- Each fault reason has a code of its own. -/
theorem FaultReason.code_inj {f g : FaultReason} : f.code = g.code ↔ f = g := by
  cases f <;> cases g <;> decide

/-- An instruction that is none of the four writers of memory leaves every word as it reads (20_memory.md R51). -/
theorem ExecCase.sameMemory {i : Instr} {s t : State} (hi : ExecCase i s t) (amend : ∀ a b c, i ≠ .amend a b c)
    (alloc : ∀ a b c, i ≠ .alloc a b c) (abandon : ∀ a b c, i ≠ .abandon a b c)
    (loadprog : ∀ a b c, i ≠ .loadprog a b c) : SameMemory s t := by
  rcases hi.seg_cases with hseg | ⟨a, b, c, _, e, _⟩ | ⟨a, b, c, _, _, e, _⟩ | ⟨a, b, c, e, _⟩ | ⟨a, b, c, _, e, _⟩
  · exact fun _ _ => by rw [hseg]
  · exact absurd e (amend a b c)
  · exact absurd e (alloc a b c)
  · exact absurd e (abandon a b c)
  · exact absurd e (loadprog a b c)

/-- One instruction keeps the length of every segment other than 0 that stays live (10_state.md R28). -/
theorem ExecCase.len_kept {i : Instr} {s t : State} (hs : s.Inv) (hi : ExecCase i s t) {h : Word} {g g' : Segment}
    (h0 : h ≠ 0#32) (hg : s.seg.segment h = some g) (hg' : t.seg.segment h = some g') : g'.len = g.len := by
  rcases hi.seg_cases with hseg | ⟨a, b, c, old, -, hold, hseg⟩ | ⟨_, _, c, k, u, -, ha, hseg⟩ | ⟨_, _, c, -, hseg⟩ |
    ⟨_, _, _, _, -, hseg⟩
  · rw [hseg, hg] at hg'
    cases hg'
    rfl
  · rw [hseg] at hg'
    by_cases e : h = s.reg a
    · subst e
      rw [Memory.segment_put_same] at hg'
      cases hold.symm.trans hg
      cases hg'
      exact Segment.len_set ..
    · rw [Memory.segment_put_other _ _ e, hg] at hg'
      cases hg'
      rfl
  · have hnew : s.seg.segment k = none := (Memory.live_eq_false_iff ..).1 (hs.handles.allocate_not_live ha)
    have e : h ≠ k := fun e => by rw [e, hnew] at hg; cases hg
    rw [hseg, Memory.segment_put_other _ _ e, hg] at hg'
    cases hg'
    rfl
  · rw [hseg] at hg'
    have e : h ≠ s.reg c := fun e => by rw [e, Memory.segment_remove_same] at hg'; cases hg'
    rw [Memory.segment_remove_other _ e, hg] at hg'
    cases hg'
    rfl
  · rw [hseg, Memory.segment_put_other _ _ h0, hg] at hg'
    cases hg'
    rfl

end Sys2Proof.Machine

namespace Sys2Proof.Proofs

open Sys2Proof.Machine

/-- Settles O17: each case of a step keeps the invariant (`State.Inv.execCase`). -/
theorem stepKeepsInvariant : Obligations.StepKeepsInvariant :=
  fun _ _ hs h => hs.step h

/-- Settles O16, with and without a load error (`State.init_inv`). -/
theorem initMeetsInvariant : Obligations.InitMeetsInvariant :=
  State.init_inv

/-- Settles O18, by induction on how the state is reached. -/
theorem reachableStatesMeetInvariant : Obligations.ReachableStatesMeetInvariant := by
  intro s h
  induction h with
  | init cap program acks => exact (State.init_inv cap program).withSinkAcks acks
  | step _ hstep ih => exact ih.step hstep
  | lineAnswered answer _ ih => exact ih.lineAnswered answer
  | sinkAcknowledges _ ih => exact ih.sinkAcknowledges

/-- Settles O25. -/
theorem registerWriters : Obligations.RegisterWriters :=
  ⟨fun s r v => ⟨State.reg_setReg_same s r v, fun _ hq => State.reg_setReg_other s v hq⟩,
    fun r => ⟨r.number, Laws.TableMatch.number_lt r, Reg.ofBits_number r, rfl⟩,
    fun _ _ _ h => (exec_eq_next_cases h).sameRegsBut⟩

/-- Settles O34: a fault before the advance leaves memory as it was, and an instruction keeps the lengths. -/
theorem segmentLengthsAreFixed : Obligations.SegmentLengthsAreFixed := by
  intro s t h g g' hs hstep h0 hg hg'
  obtain ⟨_, ⟨_, _, rfl⟩ | ⟨i, hi⟩⟩ := step_eq_next_exec hstep
  · cases hg.symm.trans hg'
    rfl
  · exact hi.len_kept hs.advance h0 hg hg'

/-- Settles O35, from the cases of the allocator and the cases of memory. -/
theorem allocatorAndMemoryWriters : Obligations.AllocatorAndMemoryWriters := by
  intro i s t h
  have hi := exec_eq_next_cases h
  have memory := hi.sameMemory
  rcases hi.allocator_cases with ⟨hfree, hnext⟩ | ⟨a, b, c, rfl, hmove⟩ | ⟨a, b, c, rfl, hnext, hfree⟩
  · exact ⟨fun _ => hnext, .inl hnext, fun _ _ => hfree, fun _ _ _ _ => .inl hfree, fun _ _ _ _ => .inl hfree, memory⟩
  · exact ⟨fun ne => absurd rfl (ne a b c), hmove.imp And.left And.left, fun ne => absurd rfl (ne a b c),
      fun _ _ _ _ => hmove.symm.imp And.right And.right, fun _ _ _ e => (by cases e), memory⟩
  · exact ⟨fun _ => hnext, .inl hnext, fun _ ne => absurd rfl (ne a b c), fun _ _ _ e => (by cases e),
      fun _ _ _ e => (by cases e; exact .inr hfree), memory⟩

/-- Settles O43: only Input touches the input state, and at the latched end it asks nothing. -/
theorem eofLatchIsNeverCleared : Obligations.EofLatchIsNeverCleared := by
  intro s t hstep he
  obtain ⟨_, ⟨_, _, rfl⟩ | ⟨i, hi⟩⟩ := step_eq_next_exec hstep
  · exact ⟨he, rfl⟩
  · exact hi.eofLatch_kept he

/-- Settles O11. -/
theorem resetRegistersAndPc : Obligations.ResetRegistersAndPc := by
  refine ⟨fun cap program r => ?_, fun r => ⟨State.reset_reg r, rfl⟩⟩
  obtain ⟨hregs, hpc⟩ := State.init_regs cap program
  exact ⟨(congrArg (·.get r) hregs).trans (State.reset_reg r), hpc⟩

/-- Settles O15: the reset state is Init of the empty program. -/
theorem resetMeetsInvariant : Obligations.ResetMeetsInvariant := by
  unfold Obligations.ResetMeetsInvariant
  rw [State.reset_eq_init]
  exact State.init_inv none []

/-- Settles O48. -/
theorem hostStatusShowsCodes : Obligations.HostStatusShowsCodes := by
  refine ⟨fun s => ⟨rfl, rfl, rfl, ?_⟩, rfl, rfl, rfl, rfl, rfl, rfl, rfl, rfl⟩
  obtain ⟨running, halted, faulted, never⟩ := RunState.code_eq s.runState
  exact ⟨running, halted, faulted, never, fun _ => FaultReason.code_inj⟩

end Sys2Proof.Proofs
end

section
/-! PROOFS. The statements about memory (20_memory.md): the access check, the fetch as a read of segment 0, and Allocation without
room. -/

namespace Sys2Proof.Machine

/-- The capacity check passes exactly when the words fit. -/
theorem overCapacity_eq_false_iff {cap : Option Nat} {words : Nat} : overCapacity cap words = false ↔ Fits cap words := by
  cases cap with
  | none => simp [overCapacity, Fits]
  | some limit => simp [overCapacity, Fits]

/-- The capacity check fails exactly when the words do not fit. -/
theorem overCapacity_eq_true_iff {cap : Option Nat} {words : Nat} : overCapacity cap words = true ↔ ¬ Fits cap words := by
  rw [← overCapacity_eq_false_iff, Bool.not_eq_false]

/-- Two handles of one and the same segment read alike, in one memory or in two. -/
theorem Memory.read_eq_of_segment_eq {m m' : Memory} {h h' : Word} (e : m'.segment h' = m.segment h) (i : Word) :
    m'.read h' i = m.read h i := by
  simp only [Memory.read, Memory.check, e]

/-- Where segment 0 is live, a fetch is the read of segment 0 at the pc (20_memory.md R55, R56). -/
theorem State.fetch_eq_read {s : State} {g : Segment} (hg : s.seg.segment 0#32 = some g) :
    s.fetch = s.seg.read 0#32 s.pc := by
  by_cases hpc : s.pc.toNat < g.len.toNat
  · rw [State.fetch_eq_ok.2 ⟨g, hg, hpc, rfl⟩, Memory.read_eq_ok.2 ⟨g, hg, hpc, rfl⟩]
  · have hlen : g.len.toNat ≤ s.pc.toNat := Nat.not_lt.1 hpc
    rw [Memory.read_eq_error.2 (.inr ⟨g, hg, hlen, rfl⟩), State.fetch_eq_error]
    refine ⟨rfl, fun g' hg' => ?_⟩
    cases hg.symm.trans hg'
    exact hlen

/-- A written word reads as written (20_memory.md R57). -/
theorem Memory.read_write_same {m m' : Memory} {h i v : Word} (e : m.write h i v = .ok m') : m'.read h i = .ok v := by
  obtain ⟨g, _, hi, rfl⟩ := Memory.write_eq_ok.1 e
  rw [Memory.read_put_same m h (g := g.set i v) hi, Segment.get_set_same]

/-- A write changes one word: every other word of every segment reads as before (20_memory.md R57). -/
theorem Memory.read_write_other {m m' : Memory} {h i v : Word} (e : m.write h i v = .ok m') {k j : Word}
    (hkj : ¬ (k = h ∧ j = i)) : m'.read k j = m.read k j := by
  obtain ⟨g, hg, _, rfl⟩ := Memory.write_eq_ok.1 e
  exact Memory.read_put_set_other v hg hkj

/-- After a write to segment 0 at the pc the fetch gives the written word. -/
theorem State.fetch_of_write {s : State} {v : Word} {m : Memory} (e : s.seg.write 0#32 s.pc v = .ok m) :
    ({ s with seg := m } : State).fetch = .ok v := by
  have hread : m.read 0#32 s.pc = .ok v := Memory.read_write_same e
  obtain ⟨_, hg, _, _⟩ := Memory.read_eq_ok.1 hread
  exact (State.fetch_eq_read (s := { s with seg := m }) hg).trans hread

/-- An Array Amendment that did not fault wrote its word. -/
theorem ExecCase.amend_running {a b c : Reg} {s t : State} (h : ExecCase (.amend a b c) s t)
    (hr : t.runState = .running) :
    ∃ m, s.seg.write (s.reg a) (s.reg b) (s.reg c) = .ok m ∧ t = { s with seg := m } := by
  cases h with
  | raised => cases hr
  | waits _ _ hw => exact hw.elim
  | setReg _ _ _ _ hw => exact hw.elim
  | amend _ _ _ _ m e => exact ⟨m, e, rfl⟩

/-- A Load Program of another segment that did not fault put that segment under handle 0 and jumped to x[C]. -/
theorem ExecCase.loadprog_running {a b c : Reg} {s t : State} (h : ExecCase (.loadprog a b c) s t)
    (hr : t.runState = .running) (hb : s.reg b ≠ 0#32) :
    ∃ g, s.seg.segment (s.reg b) = some g ∧ t = { s with seg := s.seg.put 0#32 g, pc := s.reg c } := by
  cases h with
  | raised => cases hr
  | waits _ _ hw => exact hw.elim
  | setReg _ _ _ _ hw => exact hw.elim
  | jump _ _ _ _ h0 => exact absurd h0 hb
  | load _ _ _ _ _ _ e =>
    obtain ⟨g, hg, _, rfl⟩ := State.replaceProgram_eq_ok.1 e
    exact ⟨g, hg, rfl⟩

/-- Allocation raises the fault of the memory manager. -/
theorem exec_alloc_of_error {a b c : Reg} {s : State} {f : FaultReason} (e : s.allocate (s.reg c) = .error f) :
    exec (.alloc a b c) s = raise f s := by
  simp only [exec, execAlloc, e]

end Sys2Proof.Machine

namespace Sys2Proof.Proofs

open Sys2Proof.Machine

/-- Settles O26: the three cases of the access check. -/
theorem memoryReadAndWrite : Obligations.MemoryReadAndWrite := by
  refine ⟨fun m h i v g hg hi => ?_, fun m h i v hg => ?_, fun m h i v g hg hi => ?_⟩
  · have hw : m.write h i v = .ok (m.put h (g.set i v)) := Memory.write_eq_ok.2 ⟨g, hg, hi, rfl⟩
    exact ⟨Memory.read_eq_ok.2 ⟨g, hg, hi, rfl⟩, _, hw, Memory.read_write_same hw,
      fun _ _ hkj => Memory.read_write_other hw hkj⟩
  · exact ⟨Memory.read_eq_error.2 (.inl ⟨hg, rfl⟩), Memory.write_eq_error.2 (.inl ⟨hg, rfl⟩)⟩
  · exact ⟨Memory.read_eq_error.2 (.inr ⟨g, hg, hi, rfl⟩), Memory.write_eq_error.2 (.inr ⟨g, hg, hi, rfl⟩)⟩

/-- Settles O47: the fetch is a read of segment 0, which holds the written word or the copy of the loaded segment. -/
theorem nextFetchSeesTheWrite : Obligations.NextFetchSeesTheWrite := by
  refine ⟨fun a b c s t h hr ha hb => ?_, fun a b c s t h hr hb => ?_⟩
  · obtain ⟨m, hw, rfl⟩ := (exec_eq_next_cases h).amend_running hr
    rw [ha, hb] at hw
    exact State.fetch_of_write hw
  · obtain ⟨g, hg, rfl⟩ := (exec_eq_next_cases h).loadprog_running hr hb
    have h0 : (s.seg.put 0#32 g).segment 0#32 = some g := Memory.segment_put_same s.seg 0#32 g
    calc State.fetch { s with seg := s.seg.put 0#32 g, pc := s.reg c }
      _ = (s.seg.put 0#32 g).read 0#32 (s.reg c) :=
        State.fetch_eq_read (s := { s with seg := s.seg.put 0#32 g, pc := s.reg c }) h0
      _ = s.seg.read (s.reg b) (s.reg c) := Memory.read_eq_of_segment_eq (h0.trans hg.symm) (s.reg c)

/-- Settles O30: the two causes are those of `Allocate` (`State.allocate_eq_error`). -/
theorem allocRaisesOutOfMemory : Obligations.AllocRaisesOutOfMemory := by
  intro a b c s hfull
  have herr : s.allocate (s.reg c) = .error .outOfMemory :=
    State.allocate_eq_error.2 ⟨rfl, hfull.imp_left overCapacity_eq_true_iff.2⟩
  exact ⟨_, exec_alloc_of_error herr, onlyRaises .outOfMemory s⟩

end Sys2Proof.Proofs
end

section
/-! PROOFS. The statements about the encoding (30_encoding.md): what the decoder answers for a word of each layout, and that every
word is in one of them. -/

namespace Sys2Proof

open Sys2Proof.Machine

/-- The opcode map of 30_encoding.md R84: the opcode selects the shape, and the shape carries the three fields. -/
theorem decode_eq_standard {op : Nat} {shape : Reg → Reg → Reg → Instr} (hmem : (op, shape) ∈ standardShapes) {w : Word}
    (hop : (opcodeField w).toNat = op) : decode w = .instr (shape (fieldA w) (fieldB w) (fieldC w)) := by
  simp only [standardShapes, List.mem_cons, List.not_mem_nil, or_false, Prod.mk.injEq] at hmem
  rcases hmem with ⟨rfl, rfl⟩ | ⟨rfl, rfl⟩ | ⟨rfl, rfl⟩ | ⟨rfl, rfl⟩ | ⟨rfl, rfl⟩ | ⟨rfl, rfl⟩ | ⟨rfl, rfl⟩ | ⟨rfl, rfl⟩ |
    ⟨rfl, rfl⟩ | ⟨rfl, rfl⟩ | ⟨rfl, rfl⟩ | ⟨rfl, rfl⟩ | ⟨rfl, rfl⟩ <;> simp only [decode, hop]

/-- Opcode 13 selects the immediate shape (30_encoding.md R83). -/
theorem decode_eq_ortho {w : Word} (hop : (opcodeField w).toNat = 13) :
    decode w = .instr (.ortho (fieldImmReg w) (fieldImm w)) := by
  simp only [decode, hop]

/-- Every opcode above 13 is invalid (30_encoding.md R86). -/
theorem decode_eq_unknown {w : Word} (hop : 14 ≤ (opcodeField w).toNat) : decode w = .unknown (opcodeField w) := by
  have hlt := (opcodeField w).isLt
  obtain h | h : (opcodeField w).toNat = 14 ∨ (opcodeField w).toNat = 15 := by omega
  · simp only [decode, h]
  · simp only [decode, h]

/-- Every opcode up to 12 has a standard shape (30_encoding.md R81, R84). -/
theorem exists_standardShape {op : Nat} (h : op ≤ 12) : ∃ shape, (op, shape) ∈ standardShapes := by
  have hmem : op ∈ standardShapes.map Prod.fst := (by decide : ∀ n < 13, n ∈ standardShapes.map Prod.fst) op (by omega)
  obtain ⟨⟨_, shape⟩, hp, rfl⟩ := List.mem_map.1 hmem
  exact ⟨shape, hp⟩

/-- Every word is a standard-layout word of its own opcode and fields (30_encoding.md R82). -/
theorem standardWord_fields (w : Word) : StandardWord (w.toNat / 2 ^ 28) (fieldA w) (fieldB w) (fieldC w) w :=
  ⟨rfl, (fieldA_number w).symm, (fieldB_number w).symm, (fieldC_number w).symm⟩

/-- Every word of opcode 13 is an immediate-layout word of its own fields (30_encoding.md R83). -/
theorem immediateWord_fields {w : Word} (h : w.toNat / 2 ^ 28 = 13) :
    ImmediateWord (fieldImmReg w) (w.toNat % 2 ^ 25) w :=
  ⟨h, (fieldImmReg_number w).symm, rfl⟩

/-- A standard-layout word decodes to its opcode's shape (30_encoding.md R85). -/
theorem Machine.StandardWord.decode_eq {op : Nat} {shape : Reg → Reg → Reg → Instr} {a b c : Reg} {w : Word}
    (h : StandardWord op a b c w) (hmem : (op, shape) ∈ standardShapes) : decode w = .instr (shape a b c) := by
  obtain ⟨hop, rfl, rfl, rfl⟩ := h.fields
  exact decode_eq_standard hmem hop

/-- An immediate-layout word decodes to Orthography (30_encoding.md R85). -/
theorem Machine.ImmediateWord.decode_eq {a : Reg} {imm : Nat} {w : Word} (h : ImmediateWord a imm w) :
    decode w = .instr (.ortho a (BitVec.ofNat 32 imm)) := by
  obtain ⟨hop, rfl, rfl⟩ := h.fields
  rw [decode_eq_ortho hop, BitVec.ofNat_toNat, BitVec.setWidth_eq]

end Sys2Proof

namespace Sys2Proof.Proofs

open Sys2Proof.Machine

/-- Settles O2: one lemma for each layout, and a split by the opcode for the last clause. -/
theorem decoderReadsFields : Obligations.DecoderReadsFields := by
  refine ⟨fun _ _ hmem _ _ _ _ h => h.decode_eq hmem, fun _ _ _ h => h.decode_eq, fun w h => ?_, fun w => ?_⟩
  · rw [← opcodeField_toNat] at h ⊢
    rw [decode_eq_unknown h, BitVec.ofNat_toNat, BitVec.setWidth_eq]
  · obtain h | h | h : w.toNat / 2 ^ 28 ≤ 12 ∨ w.toNat / 2 ^ 28 = 13 ∨ 14 ≤ w.toNat / 2 ^ 28 := by omega
    · obtain ⟨shape, hmem⟩ := exists_standardShape h
      exact .inl ⟨_, shape, _, _, _, hmem, standardWord_fields w⟩
    · exact .inr (.inl ⟨_, _, immediateWord_fields h⟩)
    · exact .inr (.inr h)

/-- Settles O1, by evaluating the decoder on the eleven words. -/
theorem specWordsDecode : Obligations.SpecWordsDecode := by
  unfold Obligations.SpecWordsDecode
  decide

end Sys2Proof.Proofs
end

section
/-! PROOFS. The statements about the register operations (40_register_ops.md): what each computes as a number or bit by bit, what
its execution answers, and that the frame is that of one register write. -/

namespace Sys2Proof.Machine

theorem sumMod_toNat (x y : Word) : (sumMod x y).toNat = (x.toNat + y.toNat) % 2 ^ 32 :=
  BitVec.toNat_add x y

theorem productMod_toNat (x y : Word) : (productMod x y).toNat = x.toNat * y.toNat % 2 ^ 32 :=
  BitVec.toNat_mul x y

/-- A zero divisor has no quotient (40_register_ops.md R104). -/
theorem quotient_zero (x : Word) : quotient x 0#32 = .error .divisionByZero := if_pos rfl

theorem quotient_of_ne {x y : Word} (h : y ≠ 0#32) : quotient x y = .ok (x / y) := if_neg h

theorem notAnd_getLsbD (x y : Word) {k : Nat} (h : k < 32) :
    (notAnd x y).getLsbD k = !(x.getLsbD k && y.getLsbD k) := by
  rw [notAnd, BitVec.getLsbD_not, BitVec.getLsbD_and, decide_eq_true h, Bool.true_and]

section exec
variable {a b c : Reg} {s : State}

/-- Conditional Move whose condition holds writes x[A] (40_register_ops.md R100). -/
theorem exec_cmov_of_ne (h : s.reg c ≠ 0#32) : exec (.cmov a b c) s = .next (s.setReg a (s.reg b)) :=
  congrArg _ (if_pos (decide_eq_true h))

/-- Conditional Move whose condition does not hold answers the state as it is (40_register_ops.md R100). -/
theorem exec_cmov_of_eq (h : s.reg c = 0#32) : exec (.cmov a b c) s = .next s := by
  have hcond : ¬ s.conditionHolds c = true := by simp [State.conditionHolds, h]
  exact congrArg _ (if_neg hcond)

theorem exec_add : exec (.add a b c) s = .next (s.setReg a (sumMod (s.reg b) (s.reg c))) := rfl

theorem exec_mul : exec (.mul a b c) s = .next (s.setReg a (productMod (s.reg b) (s.reg c))) := rfl

/-- Division by a word other than 0 writes the quotient (40_register_ops.md R103). -/
theorem exec_div_of_ne (h : s.reg c ≠ 0#32) : exec (.div a b c) s = .next (s.setReg a (s.reg b / s.reg c)) := by
  simp only [exec, execDiv, quotient_of_ne h]

/-- Division by 0 raises its fault (40_register_ops.md R104). -/
theorem exec_div_of_eq (h : s.reg c = 0#32) : exec (.div a b c) s = raise .divisionByZero s := by
  simp only [exec, execDiv, h, quotient_zero]

theorem exec_nand : exec (.nand a b c) s = .next (s.setReg a (notAnd (s.reg b) (s.reg c))) := rfl

theorem exec_ortho {imm : Word} : exec (.ortho a imm) s = .next (s.setReg a imm) := rfl

end exec

/-- The immediate of a word has 25 bits (30_encoding.md R88). -/
theorem ImmediateWord.imm_le {a : Reg} {imm : Nat} {w : Word} (h : ImmediateWord a imm w) : imm ≤ 0x1FFFFFF := by
  obtain ⟨-, -, rfl⟩ := h
  exact Nat.le_of_lt_succ (Nat.mod_lt _ (by decide))

end Sys2Proof.Machine

namespace Sys2Proof.Proofs

open Sys2Proof.Machine

/-- Settles O19: a write of x[A] when the condition holds, the same state when it does not. -/
theorem cmovMovesWhenConditionHolds : Obligations.CmovMovesWhenConditionHolds := by
  refine fun a b c => ⟨fun w h => h.decode_eq (by simp [standardShapes]), fun s => ?_⟩
  by_cases hc : s.reg c = 0#32
  · exact ⟨s, exec_cmov_of_eq hc, fun hne => absurd hc hne, fun _ => rfl, onlyRegChanges_self a s⟩
  · exact ⟨_, exec_cmov_of_ne hc, fun _ => State.reg_setReg_same s a _, fun h0 => absurd h0 hc,
      onlyRegChanges_setReg a _ s⟩

/-- Settles O20. -/
theorem addWritesSumModulo : Obligations.AddWritesSumModulo := by
  refine fun a b c => ⟨fun w h => h.decode_eq (by simp [standardShapes]), fun s =>
    ⟨_, exec_add, ?_, onlyRegChanges_setReg a _ s⟩⟩
  rw [State.reg_setReg_same, sumMod_toNat]

/-- Settles O21. -/
theorem mulWritesProductModulo : Obligations.MulWritesProductModulo := by
  refine fun a b c => ⟨fun w h => h.decode_eq (by simp [standardShapes]), fun s =>
    ⟨_, exec_mul, ?_, onlyRegChanges_setReg a _ s⟩⟩
  rw [State.reg_setReg_same, productMod_toNat]

/-- Settles O22: one clause for each case of the divisor. -/
theorem divWritesQuotientOrFaults : Obligations.DivWritesQuotientOrFaults := by
  refine fun a b c => ⟨fun w h => h.decode_eq (by simp [standardShapes]), fun s hc => ?_, fun s hc => ?_⟩
  · refine ⟨_, exec_div_of_ne hc, ?_, onlyRegChanges_setReg a _ s⟩
    rw [State.reg_setReg_same, BitVec.toNat_udiv]
  · exact ⟨_, exec_div_of_eq hc, onlyRaises .divisionByZero s⟩

/-- Settles O23. -/
theorem nandWritesEveryBit : Obligations.NandWritesEveryBit := by
  refine fun a b c => ⟨fun w h => h.decode_eq (by simp [standardShapes]), fun s =>
    ⟨_, exec_nand, fun k hk => ?_, onlyRegChanges_setReg a _ s⟩⟩
  rw [State.reg_setReg_same, notAnd_getLsbD _ _ hk]

/-- Settles O24. -/
theorem orthoWritesImmediate : Obligations.OrthoWritesImmediate :=
  fun a => ⟨fun _ _ h => ⟨h.decode_eq, h.imm_le⟩, fun imm s =>
    ⟨_, exec_ortho, State.reg_setReg_same s a imm, onlyRegChanges_setReg a imm s⟩⟩

end Sys2Proof.Proofs
end

section
/-! PROOFS. The statements about the segment operations (41_segment_ops.md): what each answers when the memory manager answers and
when it fails, what each leaves unchanged, and the handle that Allocation gives after an Abandonment. -/

namespace Sys2Proof.Machine

section exec
variable {a b c : Reg} {s : State}

/-- An instruction that raises a fault answers a next state in which nothing else has changed. -/
theorem exists_onlyRaises {i : Instr} {f : FaultReason} (h : exec i s = raise f s) :
    ∃ t, exec i s = .next t ∧ OnlyRaises f s t :=
  ⟨_, h, onlyRaises f s⟩

/-- Array Index of a word that can be read writes it to x[A] (41_segment_ops.md R120). -/
theorem exec_index_of_ok {v : Word} (e : s.seg.read (s.reg b) (s.reg c) = .ok v) :
    exec (.index a b c) s = .next (s.setReg a v) := by
  simp only [exec, execIndex, e]

/-- Array Index raises the fault of the read (41_segment_ops.md R120). -/
theorem exec_index_of_error {f : FaultReason} (e : s.seg.read (s.reg b) (s.reg c) = .error f) :
    exec (.index a b c) s = raise f s := by
  simp only [exec, execIndex, e]

/-- Array Amendment of a word that can be written writes it (41_segment_ops.md R122). -/
theorem exec_amend_of_ok {m : Memory} (e : s.seg.write (s.reg a) (s.reg b) (s.reg c) = .ok m) :
    exec (.amend a b c) s = .next { s with seg := m } := by
  simp only [exec, execAmend, e]

/-- Array Amendment raises the fault of the write (41_segment_ops.md R122). -/
theorem exec_amend_of_error {f : FaultReason} (e : s.seg.write (s.reg a) (s.reg b) (s.reg c) = .error f) :
    exec (.amend a b c) s = raise f s := by
  simp only [exec, execAmend, e]

/-- Allocation writes the new handle to x[B] (41_segment_ops.md R124). -/
theorem exec_alloc_of_ok {h : Word} {t : State} (e : s.allocate (s.reg c) = .ok (h, t)) :
    exec (.alloc a b c) s = .next (t.setReg b h) := by
  simp only [exec, execAlloc, e]

/-- Abandonment of a live handle other than 0 answers what `Free` makes of the state (41_segment_ops.md R127). -/
theorem exec_abandon_of_ok {t : State} (e : s.free (s.reg c) = .ok t) : exec (.abandon a b c) s = .next t := by
  simp only [exec, execAbandon, e]

/-- Abandonment raises the fault of `Free` (41_segment_ops.md R127). -/
theorem exec_abandon_of_error {f : FaultReason} (e : s.free (s.reg c) = .error f) :
    exec (.abandon a b c) s = raise f s := by
  simp only [exec, execAbandon, e]

/-- Load Program of a handle other than 0 raises the fault of `ReplaceProgram` (42_control_io.md R146). -/
theorem exec_loadprog_of_error {f : FaultReason} (hb : s.reg b ≠ 0#32)
    (e : s.replaceProgram (s.reg b) = .error f) : exec (.loadprog a b c) s = raise f s := by
  simp only [exec, execLoadprog, if_neg hb, e]

/-- Array Index of a handle that is not live raises InvalidHandle (41_segment_ops.md R120). -/
theorem exec_index_of_not_live (h : s.seg.segment (s.reg b) = none) :
    exec (.index a b c) s = raise .invalidHandle s :=
  exec_index_of_error (Memory.read_eq_error.2 (.inl ⟨h, rfl⟩))

/-- Array Amendment of a handle that is not live raises InvalidHandle (41_segment_ops.md R122). -/
theorem exec_amend_of_not_live (h : s.seg.segment (s.reg a) = none) :
    exec (.amend a b c) s = raise .invalidHandle s :=
  exec_amend_of_error (Memory.write_eq_error.2 (.inl ⟨h, rfl⟩))

/-- Abandonment of handle 0, or of one that is not live, raises InvalidHandle (41_segment_ops.md R127). -/
theorem exec_abandon_of_not_live (h : s.reg c = 0#32 ∨ s.seg.live (s.reg c) = false) :
    exec (.abandon a b c) s = raise .invalidHandle s :=
  exec_abandon_of_error (State.free_eq_error.2 ⟨rfl, h⟩)

/-- Load Program of a handle that is not live raises InvalidHandle (42_control_io.md R146). -/
theorem exec_loadprog_of_not_live (hb : s.reg b ≠ 0#32) (h : s.seg.segment (s.reg b) = none) :
    exec (.loadprog a b c) s = raise .invalidHandle s :=
  exec_loadprog_of_error hb (State.replaceProgram_eq_error.2 (.inl ⟨h, rfl⟩))

end exec

/-- A write to memory changes the one word it names (20_memory.md R57). -/
theorem onlyMemoryChanges_of_write {s : State} {h i v : Word} {m : Memory} (e : s.seg.write h i v = .ok m) :
    OnlyMemoryChanges (fun k j => k = h ∧ j = i) s { s with seg := m } :=
  ⟨fun _ => rfl, rfl, ⟨rfl, rfl⟩, fun _ _ hkj => Memory.read_write_other e hkj, ⟨rfl, rfl⟩, ⟨rfl, rfl, rfl⟩, ⟨rfl, rfl⟩, rfl⟩

/-- Allocation and the write of its handle to `b` change no other register and no other segment (20_memory.md R58). -/
theorem onlyAllocates_of_allocate {s t : State} {n h : Word} (e : s.allocate n = .ok (h, t)) (b : Reg) :
    OnlyAllocates b h s (t.setReg b h) := by
  obtain ⟨hregs, hseg, hstatus, hinput, houtput, hcapacity⟩ := State.allocate_frame e
  exact
    { regs := fun r hr => (State.reg_setReg_other t h hr).trans (congrArg (·.get r) hregs)
      pc := by obtain ⟨_, ⟨_, _, rfl⟩ | ⟨_, _, _, rfl⟩⟩ := State.allocate_eq_ok.1 e <;> rfl
      status := hstatus
      memory := fun k i hk => by
        rw [State.setReg_seg, hseg]
        exact Memory.read_put_other s.seg _ hk i
      input := hinput
      output := houtput
      capacity := hcapacity }

/-- Retiring `h` changes FREELIST and the segment `h` only (20_memory.md R59). -/
theorem onlyRetires_of_free {s t : State} {h : Word} (e : s.free h = .ok t) : OnlyRetires h s t := by
  obtain ⟨_, _, rfl⟩ := State.free_eq_ok.1 e
  exact ⟨fun _ => rfl, rfl, ⟨rfl, rfl⟩, fun _ i hk => Memory.read_remove_other s.seg hk i, rfl, ⟨rfl, rfl, rfl⟩, ⟨rfl, rfl⟩, rfl⟩

/-- Allocation has a segment to give where the size fits and a handle is left (20_memory.md R58). -/
theorem State.exists_allocate {s : State} {n : Word} (hfits : Fits s.memCapacity (s.seg.used + n.toNat))
    (hleft : s.freelist ≠ [] ∨ s.nextHandle < Config.handleSpace) : ∃ h t, s.allocate n = .ok (h, t) := by
  cases e : s.allocate n with
  | ok p => exact ⟨p.1, p.2, rfl⟩
  | error f =>
    obtain ⟨-, hfull | ⟨hfree, hnext⟩⟩ := State.allocate_eq_error.1 e
    · exact absurd hfits (overCapacity_eq_true_iff.1 hfull)
    · exact absurd hleft (by simp [hfree, hnext])

/-- The handle that Allocation answers is the oldest retired one, or else NEXT_HANDLE (41_segment_ops.md R124). -/
theorem State.allocate_handle {s t : State} {n h : Word} (e : s.allocate n = .ok (h, t)) :
    (s.freelist = h :: t.freelist ∧ t.nextHandle = s.nextHandle) ∨
      (s.freelist = [] ∧ t.freelist = [] ∧ h.toNat = s.nextHandle ∧ t.nextHandle = s.nextHandle + 1) := by
  obtain ⟨_, ⟨_, hfree, rfl⟩ | ⟨hfree, hnext, rfl, rfl⟩⟩ := State.allocate_eq_ok.1 e
  · exact .inl ⟨hfree, rfl⟩
  · exact .inr ⟨hfree, hfree, toNat_ofNat_of_lt_handleSpace hnext, rfl⟩

/-- Where a handle is retired, Allocation answers the oldest (20_memory.md R58). -/
theorem State.allocate_oldest {s t : State} {n h k : Word} {rest : List Word} (e : s.allocate n = .ok (h, t))
    (hfree : s.freelist = k :: rest) : h = k := by
  obtain ⟨hcons, -⟩ | ⟨hnil, -⟩ := State.allocate_handle e
  · exact (List.cons.inj (hcons.symm.trans hfree)).1
  · cases hnil.symm.trans hfree

/-- Every word of an allocated segment reads 0 (20_memory.md R58). -/
theorem State.read_of_allocate {s t : State} {n h : Word} (e : s.allocate n = .ok (h, t)) {i : Word}
    (hi : i.toNat < n.toNat) : t.seg.read h i = .ok 0#32 := by
  obtain ⟨-, hseg, -⟩ := State.allocate_frame e
  rw [hseg, Memory.read_put_same s.seg h (g := .zeros n) hi, Segment.get_zeros]

/-- An Allocation that did not fault allocated x[C] words and wrote their handle to x[B]. -/
theorem ExecCase.alloc_running {a b c : Reg} {s t : State} (h : ExecCase (.alloc a b c) s t)
    (hr : t.runState = .running) : ∃ k u, s.allocate (s.reg c) = .ok (k, u) ∧ t = u.setReg b k := by
  cases h with
  | raised => cases hr
  | waits _ _ hw => exact hw.elim
  | setReg _ _ _ _ _ hne => exact absurd rfl (hne a b c)
  | alloc _ _ _ _ k u e => exact ⟨k, u, e, rfl⟩

/-- An Abandonment that did not fault retired x[C]. -/
theorem ExecCase.abandon_running {a b c : Reg} {s t : State} (h : ExecCase (.abandon a b c) s t)
    (hr : t.runState = .running) : s.free (s.reg c) = .ok t := by
  cases h with
  | raised => cases hr
  | waits _ _ hw => exact hw.elim
  | setReg _ _ _ _ hw => exact hw.elim
  | abandon _ _ _ _ _ e => exact e

/-- With at most one handle retired before, an Allocation leaves none retired. -/
theorem State.freelist_eq_nil_of_allocate {s t : State} {n h : Word} (e : s.allocate n = .ok (h, t))
    (hle : s.freelist.length ≤ 1) : t.freelist = [] := by
  obtain ⟨hfree, -⟩ | ⟨-, hnil, -⟩ := State.allocate_handle e
  · rw [hfree, List.length_cons] at hle
    exact List.eq_nil_of_length_eq_zero (by omega)
  · exact hnil

end Sys2Proof.Machine

namespace Sys2Proof.Proofs

open Sys2Proof.Machine

/-- Settles O27: the three cases of the read. -/
theorem indexReadsWordOrFaults : Obligations.IndexReadsWordOrFaults := by
  refine fun a b c => ⟨fun w h => h.decode_eq (by simp [standardShapes]), fun s g hg hi => ?_, fun s hg => ?_,
    fun s g hg hi => ?_⟩
  · exact ⟨_, exec_index_of_ok (Memory.read_eq_ok.2 ⟨g, hg, hi, rfl⟩), State.reg_setReg_same s a _,
      onlyRegChanges_setReg a _ s⟩
  · exact exists_onlyRaises (exec_index_of_not_live hg)
  · exact exists_onlyRaises (exec_index_of_error (Memory.read_eq_error.2 (.inr ⟨g, hg, hi, rfl⟩)))

/-- Settles O28: the three cases of the write. -/
theorem amendWritesWordOrFaults : Obligations.AmendWritesWordOrFaults := by
  refine fun a b c => ⟨fun w h => h.decode_eq (by simp [standardShapes]), fun s g hg hi => ?_, fun s hg => ?_,
    fun s g hg hi => ?_⟩
  · have hw : s.seg.write (s.reg a) (s.reg b) (s.reg c) = .ok (s.seg.put (s.reg a) (g.set (s.reg b) (s.reg c))) :=
      Memory.write_eq_ok.2 ⟨g, hg, hi, rfl⟩
    exact ⟨_, exec_amend_of_ok hw, Memory.read_write_same hw, onlyMemoryChanges_of_write hw⟩
  · exact exists_onlyRaises (exec_amend_of_not_live hg)
  · exact exists_onlyRaises (exec_amend_of_error (Memory.write_eq_error.2 (.inr ⟨g, hg, hi, rfl⟩)))

/-- Settles O29: `Allocate` answers, and its handle, its words and its frame are those of the memory manager. -/
theorem allocCreatesZeroSegment : Obligations.AllocCreatesZeroSegment := by
  intro a b c s hfits hleft
  obtain ⟨h, t, e⟩ := State.exists_allocate hfits hleft
  obtain ⟨-, hseg, -⟩ := State.allocate_frame e
  have hnew : t.seg.segment h = some (.zeros (s.reg c)) := by rw [hseg, Memory.segment_put_same]
  have handle := State.allocate_handle e
  have zero : ∀ i : Word, i.toNat < (s.reg c).toNat → t.seg.read h i = .ok 0#32 := fun _ => State.read_of_allocate e
  exact ⟨_, h, exec_alloc_of_ok e, State.reg_setReg_same t b h, handle, ⟨_, hnew, Segment.len_zeros _, zero⟩,
    onlyAllocates_of_allocate e b⟩

/-- Settles O31: the two cases of `Free`. -/
theorem abandonRetiresHandleOrFaults : Obligations.AbandonRetiresHandleOrFaults := by
  refine fun a b c => ⟨fun w h => h.decode_eq (by simp [standardShapes]), fun s h0 hl => ?_, fun s hs => ?_⟩
  · have hf := State.free_eq_ok.2 ⟨h0, hl, rfl⟩
    exact ⟨_, exec_abandon_of_ok hf, (Memory.live_eq_false_iff ..).2 (Memory.segment_remove_same s.seg _), rfl,
      onlyRetires_of_free hf⟩
  · exact exists_onlyRaises (exec_abandon_of_not_live hs)

/-- Settles O32: the abandoned handle is not 0 and no longer live, and each of the four checks that first. -/
theorem retiredHandleFaults : Obligations.RetiredHandleFaults := by
  intro a b c s t h hr
  obtain ⟨h0, -, rfl⟩ := State.free_eq_ok.1 ((exec_eq_next_cases h).abandon_running hr)
  have gone : (s.seg.remove (s.reg c)).segment (s.reg c) = none := Memory.segment_remove_same s.seg (s.reg c)
  refine ⟨fun p q r hq => ?_, fun p q r hp => ?_, fun p q r hr' => ?_, fun p q r hq => ?_⟩
  · exact exists_onlyRaises (exec_index_of_not_live (by rw [hq]; exact gone))
  · exact exists_onlyRaises (exec_amend_of_not_live (by rw [hp]; exact gone))
  · exact exists_onlyRaises (exec_abandon_of_not_live (.inr (by rw [hr']; exact (Memory.live_eq_false_iff ..).2 gone)))
  · exact exists_onlyRaises (exec_loadprog_of_not_live (by rw [hq]; exact h0) (by rw [hq]; exact gone))

/-- Settles O33: after the first Allocation nothing is retired, so the Abandonment makes its handle the oldest retired one. -/
theorem allocAbandonAllocReusesHandle : Obligations.AllocAbandonAllocReusesHandle := by
  intro a b c p q a' b' c' s t u v hle hst ht htu hu huv hv
  obtain ⟨h, t', e, rfl⟩ := (exec_eq_next_cases hst).alloc_running ht
  obtain ⟨-, -, rfl⟩ := State.free_eq_ok.1 ((exec_eq_next_cases htu).abandon_running hu)
  obtain ⟨k, v', e', rfl⟩ := (exec_eq_next_cases huv).alloc_running hv
  have hnil : t'.freelist = [] := State.freelist_eq_nil_of_allocate e hle
  have hk : k = (t'.setReg b h).reg b := State.allocate_oldest e' (rest := []) (by simp [hnil])
  refine ⟨?_, fun i hi => ?_⟩
  · rw [State.reg_setReg_same, hk]
  · rw [State.reg_setReg_same]
    exact State.read_of_allocate e' hi

end Sys2Proof.Proofs
end

section
/-! PROOFS. The statements about control and input/output (42_control_io.md): what each operation answers in each of its cases, the
steps that wait and that end a wait, runs of Inputs, and the order of the channel transactions. -/

namespace Sys2Proof.Machine

/-! ### The step -/

/-- No step is taken from a state that is not Running (60_exceptions.md R163). -/
theorem step_ne_next {s : State} (hr : s.runState ≠ .running) (t : State) : step s ≠ .next t :=
  fun h => hr (step_eq_next_cases h).1

/-- A Running step executes the instruction it fetched, after the advance of the pc (60_exceptions.md R160). -/
theorem step_eq_exec {s : State} {g : Segment} {i : Instr} (hr : s.runState = .running)
    (hg : s.seg.segment 0#32 = some g) (hpc : s.pc.toNat < g.len.toNat) (hd : decode (g.get s.pc) = .instr i) :
    step s = exec i s.advance := by
  have hf : s.fetch = .ok (g.get s.pc) := State.fetch_eq_ok.2 ⟨g, hg, hpc, rfl⟩
  simp only [step, hr, hf, hd]

/-- Whether an instruction waits does not depend on the pc. -/
theorem waits_advance {i : Instr} {s : State} : Waits i s.advance ↔ Waits i s := by
  cases i <;> exact Iff.rfl

/-! ### The byte that Output writes and the answer that Input takes -/

/-- A word up to 255 is its own low byte (42_control_io.md R142). -/
theorem lowByte_toNat {v : Word} (h : v.toNat ≤ 255) : (lowByte v).toNat = v.toNat := by
  simp only [lowByte, BitVec.extractLsb_toNat, Nat.shiftRight_eq_div_pow]
  omega

/-- A byte keeps its value in a word (42_control_io.md R144). -/
theorem byteToWord_toNat (b : Byte) : (byteToWord b).toNat = b.toNat := by
  have := b.isLt
  rw [byteToWord, BitVec.toNat_setWidth]
  omega

@[simp] theorem State.receive_lineIn (s : State) (answer : LineAnswer) : (s.receive answer).lineIn = s.lineIn := by
  cases answer <;> rfl

@[simp] theorem State.receive_channel (s : State) (answer : LineAnswer) : (s.receive answer).channel = s.channel := by
  cases answer <;> rfl

/-- With a byte queued, Input does not ask (42_control_io.md R144). -/
theorem State.refill_of_queued {s : State} (h : s.pendingInput ≠ []) : s.refill = some s :=
  State.refill_eq_some.2 (.inr ⟨.inl h, rfl⟩)

/-- At the latched end of input, Input does not ask (42_control_io.md R144). -/
theorem State.refill_of_ended {s : State} (h : s.eofLatch = true) : s.refill = some s :=
  State.refill_eq_some.2 (.inr ⟨.inr h, rfl⟩)

/-- With nothing queued and the end not latched, Input takes the line source's next answer (42_control_io.md R144). -/
theorem State.refill_of_answer {s : State} {answer : LineAnswer} {rest : List LineAnswer} (hp : s.pendingInput = [])
    (he : s.eofLatch = false) (hl : s.lineIn = answer :: rest) :
    s.refill = some (State.receive { s with lineIn := rest, channel := s.channel ++ [.lineTaken answer] } answer) :=
  State.refill_eq_some.2 (.inl ⟨hp, he, answer, rest, hl, rfl⟩)

/-- Input asks for nothing, or takes exactly one answer and records it. -/
theorem State.refill_channel_cases {s t : State} (h : s.refill = some t) :
    t.channel = s.channel ∨ ∃ answer, s.lineIn = answer :: t.lineIn ∧ t.channel = s.channel ++ [.lineTaken answer] := by
  rcases State.refill_eq_some.1 h with ⟨_, _, answer, rest, hl, rfl⟩ | ⟨_, rfl⟩
  · exact .inr ⟨answer, by rw [State.receive_lineIn, hl], State.receive_channel _ answer⟩
  · exact .inl rfl

/-! ### What each operation answers -/

section exec
variable {a b c : Reg} {s : State}

theorem exec_halt : exec (.halt a b c) s = .next { s with runState := .halted } := rfl

/-- Output of a word above 255 raises its fault (42_control_io.md R142). -/
theorem exec_output_of_gt (h : 255 < (s.reg c).toNat) : exec (.output a b c) s = raise .invalidOutputByte s :=
  if_pos h

/-- Output of a byte to a sink that acknowledges writes it (42_control_io.md R142). -/
theorem exec_output_of_le (h : (s.reg c).toNat ≤ 255) (hack : s.sinkAcks ≠ some 0) :
    exec (.output a b c) s = .next { s with sinkAcks := s.sinkAcks.map (· - 1),
                                            channel := s.channel ++ [.byteWritten (lowByte (s.reg c))] } := by
  have hle : ¬ Config.maxOutputByte < (s.reg c).toNat := Nat.not_lt.2 h
  simp only [exec, execOutput, if_neg hle, State.writeFlush_eq_some.2 ⟨hack, rfl⟩]

/-- Input that does not wait delivers from the queue as asking left it (42_control_io.md R144). -/
theorem exec_input_of_refill {t : State} (e : s.refill = some t) : exec (.input a b c) s = .next (t.takeByte c) := by
  simp only [exec, execInput, e]

/-- Input delivers the oldest byte that is queued after asking (42_control_io.md R144). -/
theorem exec_input_of_cons {t : State} {x : Byte} {rest : List Byte} (e : s.refill = some t)
    (hq : t.pendingInput = x :: rest) :
    exec (.input a b c) s = .next (State.setReg { t with pendingInput := rest } c (byteToWord x)) := by
  rw [exec_input_of_refill e, State.takeByte_cons c hq]

/-- Input delivers all ones if nothing is queued after asking (42_control_io.md R144). -/
theorem exec_input_of_nil {t : State} (e : s.refill = some t) (hq : t.pendingInput = []) :
    exec (.input a b c) s = .next (t.setReg c Config.allOnes) := by
  rw [exec_input_of_refill e, State.takeByte_nil c hq]

/-- Load Program of handle 0 is a jump (42_control_io.md R146). -/
theorem exec_loadprog_of_zero (h : s.reg b = 0#32) : exec (.loadprog a b c) s = .next { s with pc := s.reg c } :=
  if_pos h

/-- Load Program of a live handle other than 0 puts a copy of its segment under handle 0 and jumps (42_control_io.md R146). -/
theorem exec_loadprog_of_ok {t : State} (hb : s.reg b ≠ 0#32) (e : s.replaceProgram (s.reg b) = .ok t) :
    exec (.loadprog a b c) s = .next { t with pc := s.reg c } := by
  simp only [exec, execLoadprog, if_neg hb, e]

/-- An instruction that must wait does nothing else (42_control_io.md R145, 60_exceptions.md R177). -/
theorem exec_eq_wait {i : Instr} (h : Waits i s) : exec i s = wait s := by
  cases i with
  | output a b c =>
    obtain ⟨hle, hack⟩ := h
    have hle : ¬ Config.maxOutputByte < (s.reg c).toNat := Nat.not_lt.2 hle
    simp only [exec, execOutput, if_neg hle, State.writeFlush_eq_none.2 hack]
  | input a b c => simp only [exec, execInput, State.refill_eq_none.2 h]
  | cmov | index | amend | add | mul | div | nand | halt | alloc | abandon | loadprog | ortho => exact h.elim

end exec

/-! ### What each operation leaves unchanged -/

theorem onlyRunStateChanges_with_runState (s : State) (x : RunState) : OnlyRunStateChanges s { s with runState := x } :=
  ⟨rfl, fun _ => rfl, rfl, fun _ _ => rfl, ⟨rfl, rfl⟩, ⟨rfl, rfl, rfl⟩, ⟨rfl, rfl⟩, rfl⟩

theorem onlyOutputChanges_with_output (s : State) (acks : Option Nat) (trace : List ChannelEvent) :
    OnlyOutputChanges s { s with sinkAcks := acks, channel := trace } :=
  ⟨fun _ => rfl, rfl, ⟨rfl, rfl⟩, fun _ _ => rfl, ⟨rfl, rfl⟩, ⟨rfl, rfl, rfl⟩, rfl⟩

/-- An Input that does not wait changes the input side and its register only (42_control_io.md R144). -/
theorem onlyInputChanges_of_exec {a b c : Reg} {s t u : State} (e : s.refill = some t)
    (h : exec (.input a b c) s = .next u) : OnlyInputChanges c s u := by
  cases (exec_input_of_refill e).symm.trans h
  obtain ⟨hregs, hpc, hrun, hreason, hseg, hfree, hnext, hsink, hcap⟩ := State.refill_frame e
  obtain ⟨hpc', hrun', hreason', hseg', hfree', hnext', hsink', hcap', -, -, -, v, hregs'⟩ := State.takeByte_frame c t
  exact
    { regs := fun r hr => by
        rw [State.reg, hregs', Regs.get_set_other t.regs v hr, hregs, ← State.reg]
      pc := hpc'.trans hpc
      status := ⟨hrun'.trans hrun, hreason'.trans hreason⟩
      memory := fun _ _ => by rw [hseg', hseg]
      allocator := ⟨hfree'.trans hfree, hnext'.trans hnext⟩
      sinkAcks := hsink'.trans hsink
      capacity := hcap'.trans hcap }

theorem onlyJumps_with_pc (s : State) (p : Word) : OnlyJumps (fun _ _ => False) s { s with pc := p } :=
  ⟨fun _ => rfl, ⟨rfl, rfl⟩, fun _ _ _ => rfl, ⟨rfl, rfl⟩, ⟨rfl, rfl, rfl⟩, ⟨rfl, rfl⟩, rfl⟩

/-- Putting a segment under handle 0 and jumping change the pc and the words of segment 0 only (20_memory.md R60). -/
theorem onlyJumps_put_zero (s : State) (g : Segment) (p : Word) :
    OnlyJumps (fun h _ => h = 0#32) s { s with seg := s.seg.put 0#32 g, pc := p } :=
  ⟨fun _ => rfl, ⟨rfl, rfl⟩, fun _ i hh => Memory.read_put_other s.seg g hh i, ⟨rfl, rfl⟩, ⟨rfl, rfl, rfl⟩, ⟨rfl, rfl⟩, rfl⟩

/-! ### Runs of Inputs -/

/-- A run of Inputs begins with the delivery of its first. -/
theorem inputs_succ {c : Reg} {n : Nat} {s t : State} (e : exec (.input .r0 .r0 c) s = .next t) :
    inputs c (n + 1) s = (inputs c n t).map fun p => (t.reg c :: p.1, p.2) := by
  simp only [inputs, e]

/-- A run of Inputs that asks goes on as if the answer had been queued before it. -/
theorem inputs_succ_of_refill {c : Reg} {n : Nat} {s t : State} (e : s.refill = some t) (h : t.pendingInput ≠ []) :
    inputs c (n + 1) s = inputs c (n + 1) t := by
  rw [inputs_succ (exec_input_of_refill e), inputs_succ (exec_input_of_refill (State.refill_of_queued h))]

/-- As many Inputs as bytes are queued deliver them in order, empty the queue and ask for nothing (42_control_io.md R144). -/
theorem inputs_of_queued (c : Reg) {queue : List Byte} {s : State} (h : s.pendingInput = queue) :
    ∃ t, inputs c queue.length s = some (queue.map byteToWord, t) ∧
      t.pendingInput = [] ∧ t.eofLatch = s.eofLatch ∧ t.lineIn = s.lineIn ∧ t.channel = s.channel := by
  induction queue generalizing s with
  | nil => exact ⟨s, rfl, h, rfl, rfl, rfl⟩
  | cons x rest ih =>
    have hexec := exec_input_of_cons (a := .r0) (b := .r0) (c := c) (State.refill_of_queued (by simp [h])) h
    obtain ⟨t, hrun, hrest⟩ := ih (s := State.setReg { s with pendingInput := rest } c (byteToWord x)) rfl
    refine ⟨t, ?_, hrest⟩
    rw [List.length_cons, inputs_succ hexec, hrun, State.reg_setReg_same, Option.map_some, List.map_cons]

/-! ### The channel trace -/

/-- The trace after one instruction: as it was, one byte longer by Output, or one taken answer longer by Input (60_exceptions.md
R176, R177). -/
theorem ExecCase.channel_cases {i : Instr} {s t : State} (h : ExecCase i s t) :
    t.channel = s.channel ∨
      (∃ a b c, i = .output a b c ∧ (s.reg c).toNat ≤ 255 ∧
        t.channel = s.channel ++ [.byteWritten (lowByte (s.reg c))]) ∨
      (∃ a b c answer, i = .input a b c ∧ s.lineIn = answer :: t.lineIn ∧
        t.channel = s.channel ++ [.lineTaken answer]) := by
  cases h with
  | raised | waits | notMoved | setReg | amend | halt | jump => exact .inl rfl
  | alloc _ _ _ _ _ _ ha =>
    obtain ⟨-, -, -, -, ⟨-, hchannel⟩, -⟩ := State.allocate_frame ha
    exact .inl hchannel
  | abandon _ _ _ _ _ hf =>
    obtain ⟨_, _, rfl⟩ := State.free_eq_ok.1 hf
    exact .inl rfl
  | output a b c _ _ hle hw =>
    obtain ⟨_, rfl⟩ := State.writeFlush_eq_some.1 hw
    exact .inr (.inl ⟨a, b, c, rfl, hle, rfl⟩)
  | input a b c _ u hu =>
    obtain ⟨-, -, -, -, -, -, -, -, -, hline, hchannel, -⟩ := State.takeByte_frame c u
    rw [hline, hchannel]
    exact (State.refill_channel_cases hu).imp_right fun ⟨answer, hl, ht⟩ => .inr ⟨a, b, c, answer, rfl, hl, ht⟩
  | load _ _ _ _ _ _ hp =>
    obtain ⟨_, _, _, rfl⟩ := State.replaceProgram_eq_ok.1 hp
    exact .inl rfl

end Sys2Proof.Machine

namespace Sys2Proof.Proofs

open Sys2Proof.Machine

/-- Settles O46: handle 0, and the three cases of `ReplaceProgram`. -/
theorem loadProgramCopiesAndJumps : Obligations.LoadProgramCopiesAndJumps := by
  refine fun a b c => ⟨fun w h => h.decode_eq (by simp [standardShapes]), fun s hb => ?_, fun s g hb hg hfits => ?_,
    fun s hb hg => ?_, fun s g hb hg hfull => ?_⟩
  · exact ⟨_, exec_loadprog_of_zero hb, rfl, onlyJumps_with_pc s _⟩
  · have hput := State.replaceProgram_eq_ok.2 ⟨g, hg, overCapacity_eq_false_iff.2 hfits, rfl⟩
    have copied : (s.seg.put 0#32 g).segment 0#32 = s.seg.segment (s.reg b) :=
      (Memory.segment_put_same s.seg 0#32 g).trans hg.symm
    exact ⟨_, exec_loadprog_of_ok hb hput, rfl, fun i => Memory.read_eq_of_segment_eq copied i,
      onlyJumps_put_zero s g _⟩
  · exact exists_onlyRaises (exec_loadprog_of_not_live hb hg)
  · exact exists_onlyRaises (exec_loadprog_of_error hb
      (State.replaceProgram_eq_error.2 (.inr ⟨g, hg, overCapacity_eq_true_iff.2 hfull, rfl⟩)))

/-- Settles O44, from the cases of the trace (`ExecCase.channel_cases`). -/
theorem channelOrderIsProgramOrder : Obligations.ChannelOrderIsProgramOrder := by
  refine ⟨fun s t hstep => ?_, fun i s t byte h ht => ?_, fun i s t answer h ht => ?_⟩
  · obtain ⟨_, ⟨_, _, rfl⟩ | ⟨i, hi⟩⟩ := step_eq_next_exec hstep
    · exact .inl rfl
    · rcases hi.channel_cases with same | ⟨_, _, _, _, _, more⟩ | ⟨_, _, _, _, _, _, more⟩
      · exact .inl same
      · exact .inr ⟨_, more⟩
      · exact .inr ⟨_, more⟩
  · rcases (exec_eq_next_cases h).channel_cases with same | ⟨a, b, c, hi, hle, more⟩ | ⟨_, _, _, _, _, _, more⟩
    · simp [same] at ht
    · have e : lowByte (s.reg c) = byte := by simpa [more] using ht
      exact ⟨a, b, c, hi, by rw [← e, lowByte_toNat hle]⟩
    · simp [more] at ht
  · rcases (exec_eq_next_cases h).channel_cases with same | ⟨_, _, _, _, _, more⟩ | ⟨a, b, c, taken, hi, hl, more⟩
    · simp [same] at ht
    · simp [more] at ht
    · have e : taken = answer := by simpa [more] using ht
      exact ⟨⟨a, b, c, hi⟩, e ▸ hl⟩

/-- Settles O41: the line and its terminator are queued, and as many Inputs as are queued deliver them. -/
theorem lineIsDeliveredByteByByte : Obligations.LineIsDeliveredByteByByte := by
  intro c s bytes rest hp he hl
  have ask := State.refill_of_answer hp he hl
  obtain ⟨t, hrun, hempty, hlatch, hline, hchannel⟩ := inputs_of_queued c
    (s := State.receive { s with lineIn := rest, channel := s.channel ++ [.lineTaken (.line bytes)] } (.line bytes))
    (queue := bytes ++ [Config.lineTerminator]) rfl
  rw [List.length_append, List.length_singleton, ← inputs_succ_of_refill ask (by simp [State.receive])] at hrun
  exact ⟨t, hrun, hempty, hlatch.trans he, hline, hchannel⟩

/-- Settles O42, by induction on the number of Inputs: each only writes all ones to x[C]. -/
theorem endOfInputIsForever : Obligations.EndOfInputIsForever := by
  intro n c
  induction n with
  | zero => exact fun s _ _ => ⟨s, rfl, ⟨rfl, rfl, rfl⟩, rfl⟩
  | succ n ih =>
    intro s hp he
    have hexec := exec_input_of_nil (a := .r0) (b := .r0) (c := c) (State.refill_of_ended he) hp
    obtain ⟨t, hrun, hsame⟩ := ih (s.setReg c Config.allOnes) hp he
    refine ⟨t, ?_, hsame⟩
    rw [inputs_succ hexec, hrun, State.reg_setReg_same, Option.map_some, List.replicate_succ]
    rfl

/-- Settles O40: the four cases of asking and delivering. -/
theorem inputDeliversNextByte : Obligations.InputDeliversNextByte := by
  refine fun a b c => ⟨fun w h => h.decode_eq (by simp [standardShapes]), fun s x rest hp => ?_,
    fun s bytes rest hp he hl => ?_, fun s rest hp he hl => ?_, fun s hp he => ?_⟩
  · have ask : s.refill = some s := State.refill_of_queued (by simp [hp])
    have hexec := exec_input_of_cons (a := a) (b := b) (c := c) ask hp
    exact ⟨_, hexec, by rw [State.reg_setReg_same, byteToWord_toNat], rfl, rfl, rfl, rfl,
      onlyInputChanges_of_exec ask hexec⟩
  · have ask := State.refill_of_answer hp he hl
    obtain ⟨x, tail, hq⟩ : ∃ x tail, bytes ++ [Config.lineTerminator] = x :: tail :=
      List.exists_cons_of_ne_nil (by simp)
    have hexec := exec_input_of_cons (a := a) (b := b) (c := c) ask hq
    exact ⟨_, x, hexec, hq.symm, by rw [State.reg_setReg_same, byteToWord_toNat], he, rfl, rfl,
      onlyInputChanges_of_exec ask hexec⟩
  · have ask := State.refill_of_answer hp he hl
    have hexec := exec_input_of_nil (a := a) (b := b) (c := c) ask hp
    exact ⟨_, hexec, State.reg_setReg_same _ c _, hp, rfl, rfl, rfl, onlyInputChanges_of_exec ask hexec⟩
  · have ask : s.refill = some s := State.refill_of_ended he
    have hexec := exec_input_of_nil (a := a) (b := b) (c := c) ask hp
    exact ⟨_, hexec, State.reg_setReg_same s c _, ⟨rfl, rfl, rfl⟩, rfl, onlyInputChanges_of_exec ask hexec⟩

/-- Settles O37: a byte to a sink that acknowledges, and a word that is no byte. -/
theorem outputEmitsByteOrFaults : Obligations.OutputEmitsByteOrFaults := by
  refine fun a b c => ⟨fun w h => h.decode_eq (by simp [standardShapes]), fun s hle hack => ?_, fun s hgt => ?_⟩
  · exact ⟨_, exec_output_of_le hle hack, ⟨lowByte (s.reg c), lowByte_toNat hle, rfl, List.filterMap_append⟩,
      onlyOutputChanges_with_output s _ _⟩
  · exact exists_onlyRaises (exec_output_of_gt hgt)

/-- Settles O38: the wait takes the step's advance of the pc back. -/
theorem waitingChangesNothing : Obligations.WaitingChangesNothing := by
  intro s g i hr hg hpc hd hw
  calc step s = exec i s.advance := step_eq_exec hr hg hpc hd
    _ = wait s.advance := exec_eq_wait (waits_advance.2 hw)
    _ = .next s := wait_advance s

/-- Settles O39: with the answer or the acknowledge there, the same instruction is fetched again and no longer waits. -/
theorem waitEndsWithTheAnswer : Obligations.WaitEndsWithTheAnswer := by
  refine ⟨fun s g a b c answer hr hg hpc hd hw => ?_, fun s g a b c hr hg hpc hd hw => ?_⟩
  · obtain ⟨hp, he, hl⟩ := hw
    have hline : (s.lineAnswered answer).advance.lineIn = [answer] := by simp [State.lineAnswered, hl]
    have ask := State.refill_of_answer (s := (s.lineAnswered answer).advance) hp he hline
    obtain ⟨-, hpc', -⟩ := State.refill_frame ask
    obtain ⟨hpc'', -, -, -, -, -, -, -, -, hline', hchannel, -⟩ := State.takeByte_frame c _
    refine ⟨_, (step_eq_exec (s := s.lineAnswered answer) hr hg hpc hd).trans (exec_input_of_refill ask),
      hpc''.trans hpc', hline'.trans (State.receive_lineIn _ answer), hchannel.trans (State.receive_channel _ answer)⟩
  · obtain ⟨hle, hack⟩ := hw
    have hack' : s.sinkAcknowledges.advance.sinkAcks ≠ some 0 := by simp [State.sinkAcknowledges, hack]
    exact ⟨_, _, (step_eq_exec (s := s.sinkAcknowledges) hr hg hpc hd).trans (exec_output_of_le hle hack'), rfl,
      lowByte_toNat hle, rfl⟩

/-- Settles O36. -/
theorem haltEndsTheRun : Obligations.HaltEndsTheRun :=
  fun _ _ _ => ⟨fun _ h => h.decode_eq (by simp [standardShapes]), fun s =>
    ⟨_, exec_halt, rfl, onlyRunStateChanges_with_runState s .halted, step_ne_next (by simp)⟩⟩

end Sys2Proof.Proofs
end

section
/-! PROOFS. The statements about the step and its faults (60_exceptions.md): the ways a Running step goes, what an instruction does
to the status and to the pc, that it always answers, and that its answer depends on the line source only if it asks. -/

namespace Sys2Proof.Machine

/-! ### The ways a step goes -/

/-- A fetch that fails raises its fault (20_memory.md R55). -/
theorem step_of_fetch_error {s : State} {f : FaultReason} (hr : s.runState = .running) (hf : s.fetch = .error f) :
    step s = raise f s := by
  simp only [step, hr, hf]

/-- An unknown opcode raises its fault (30_encoding.md R86). -/
theorem step_of_unknown {s : State} {w : Word} {op : BitVec 4} (hr : s.runState = .running) (hf : s.fetch = .ok w)
    (hd : decode w = .unknown op) : step s = raise .unknownOpcode s := by
  simp only [step, hr, hf, hd]

/-- In a state that is not Running there is no step (60_exceptions.md R163). -/
theorem step_eq_noStep {s : State} (hr : s.runState ≠ .running) : step s = noStep := by
  unfold step
  cases h : s.runState with
  | running => exact absurd h hr
  | halted => rfl
  | faulted => rfl

/-- A run of one or more steps from a state that is not Running ends at once (60_exceptions.md R171). -/
theorem run_succ_of_not_running (k : Nat) {s : State} (hr : s.runState ≠ .running) :
    core.run (k + 1) s = .fault .notRunning := by
  have hstep : core.step s = .fault .notRunning := step_eq_noStep hr
  simp only [Host.Core.run, hstep]

/-- Where the fetch is in range, the pc is below 2^32 - 1 and its advance does not wrap (60_exceptions.md R161). -/
theorem toNat_add_one_of_lt {p n : Word} (h : p.toNat < n.toNat) : (p + 1).toNat = p.toNat + 1 := by
  have := n.isLt
  have one : (1 : Word).toNat = 1 := rfl
  rw [BitVec.toNat_add, one]
  omega

/-! ### The status and the pc after one instruction -/

namespace ExecCase
variable {i : Instr} {s t : State}

/-- RUNSTATE and FAULT_REASON after one instruction: as they were, or changed by Halt or by a fault that changes nothing else. -/
theorem status_cases (h : ExecCase i s t) :
    SameStatus s t ∨ t = { s with runState := .halted } ∨
      ∃ f, f ≠ .noFault ∧ t = { s with runState := .faulted, faultReason := f } := by
  cases h with
  | raised _ _ f hf => exact .inr (.inr ⟨f, hf, rfl⟩)
  | halt => exact .inr (.inl rfl)
  | waits | notMoved | setReg | amend | jump => exact .inl ⟨rfl, rfl⟩
  | alloc _ _ _ _ _ _ ha =>
    obtain ⟨-, -, hstatus, -⟩ := State.allocate_frame ha
    exact .inl hstatus
  | abandon _ _ _ _ _ hf =>
    obtain ⟨_, _, rfl⟩ := State.free_eq_ok.1 hf
    exact .inl ⟨rfl, rfl⟩
  | output _ _ _ _ _ _ hw =>
    obtain ⟨_, rfl⟩ := State.writeFlush_eq_some.1 hw
    exact .inl ⟨rfl, rfl⟩
  | input _ _ c _ u hu =>
    obtain ⟨-, -, hrun, hreason, -⟩ := State.refill_frame hu
    obtain ⟨-, hrun', hreason', -⟩ := State.takeByte_frame c u
    exact .inl ⟨hrun'.trans hrun, hreason'.trans hreason⟩
  | load _ _ _ _ _ _ hp =>
    obtain ⟨_, _, _, rfl⟩ := State.replaceProgram_eq_ok.1 hp
    exact .inl ⟨rfl, rfl⟩

/-- An instruction run while Running that ends Faulted raised its fault and did nothing else (60_exceptions.md R162). -/
theorem eq_raised_of_faulted (h : ExecCase i s t) (hr : s.runState = .running) (ht : t.runState = .faulted) :
    ∃ f, f ≠ .noFault ∧ t = { s with runState := .faulted, faultReason := f } := by
  rcases h.status_cases with ⟨hrun, -⟩ | rfl | raised
  · rw [hrun, hr] at ht
    cases ht
  · cases ht
  · exact raised

/-- An instruction that neither waits nor is Load Program leaves the pc (60_exceptions.md R161). -/
theorem pc_kept (h : ExecCase i s t) (hw : ¬ Waits i s) (hl : ∀ a b c, i ≠ .loadprog a b c) : t.pc = s.pc := by
  cases h with
  | raised | notMoved | setReg | amend | halt => rfl
  | waits _ _ waits => exact absurd waits hw
  | alloc _ b _ _ _ _ ha => exact (onlyAllocates_of_allocate ha b).pc
  | abandon _ _ _ _ _ hf => exact (onlyRetires_of_free hf).pc
  | output _ _ _ _ _ _ hwrite =>
    obtain ⟨_, rfl⟩ := State.writeFlush_eq_some.1 hwrite
    rfl
  | input a b c _ u hu => exact (onlyInputChanges_of_exec (a := a) (b := b) hu (exec_input_of_refill hu)).pc
  | jump a b c | load a b c => exact absurd rfl (hl a b c)

/-- Load Program that does not fault sets the pc to x[C] (42_control_io.md R146). -/
theorem pc_of_loadprog {a b c : Reg} (h : ExecCase (.loadprog a b c) s t) (hr : t.runState = .running) :
    t.pc = s.reg c := by
  cases h with
  | raised => cases hr
  | waits _ _ hw => exact hw.elim
  | setReg _ _ _ _ hw => exact hw.elim
  | jump | load => rfl

end ExecCase

/-- A step that ends Faulted only raises its fault, at the pc where it happened: at the fetched index if the fetch or the decoding
failed, and one further if the instruction's own check failed (60_exceptions.md R162). -/
theorem raised_of_step_faulted {s t : State} (hstep : step s = .next t) (ht : t.runState = .faulted) :
    ∃ f p, f ≠ .noFault ∧ OnlyRaises f { s with pc := p } t ∧
      ((s.fetch = .error f ∧ f = .outOfBoundsIndex ∧ p = s.pc) ∨
        (∃ w op, s.fetch = .ok w ∧ decode w = .unknown op ∧ f = .unknownOpcode ∧ p = s.pc) ∨
        ∃ w i, s.fetch = .ok w ∧ decode w = .instr i ∧ p = s.pc + 1) := by
  obtain ⟨hr, ⟨f, hf, hraise⟩ | ⟨w, op, hf, hd, hraise⟩ | ⟨w, i, hf, hd, hexec⟩⟩ := step_eq_next_cases hstep
  · obtain ⟨rfl, -⟩ := State.fetch_eq_error.1 hf
    cases raise_eq_next.1 hraise
    exact ⟨_, _, by decide, onlyRaises _ s, .inl ⟨hf, rfl, rfl⟩⟩
  · cases raise_eq_next.1 hraise
    exact ⟨_, _, by decide, onlyRaises _ s, .inr (.inl ⟨w, op, hf, hd, rfl, rfl⟩)⟩
  · obtain ⟨f, hne, rfl⟩ := (exec_eq_next_cases hexec).eq_raised_of_faulted hr ht
    exact ⟨f, _, hne, onlyRaises f s.advance, .inr (.inr ⟨w, i, hf, hd, rfl⟩)⟩

/-! ### Every instruction answers a next state -/

/-- No instruction refuses: each raises its fault, waits or completes, and all three are next states (60_exceptions.md R163). -/
theorem exists_exec_eq_next (i : Instr) (s : State) : ∃ t, exec i s = .next t := by
  cases i with
  | cmov | add | mul | nand | halt | ortho => exact ⟨_, rfl⟩
  | index a b c =>
    cases e : s.seg.read (s.reg b) (s.reg c) with
    | error f => exact ⟨_, exec_index_of_error e⟩
    | ok v => exact ⟨_, exec_index_of_ok e⟩
  | amend a b c =>
    cases e : s.seg.write (s.reg a) (s.reg b) (s.reg c) with
    | error f => exact ⟨_, exec_amend_of_error e⟩
    | ok m => exact ⟨_, exec_amend_of_ok e⟩
  | div a b c =>
    by_cases hc : s.reg c = 0#32
    · exact ⟨_, exec_div_of_eq hc⟩
    · exact ⟨_, exec_div_of_ne hc⟩
  | alloc a b c =>
    cases e : s.allocate (s.reg c) with
    | error f => exact ⟨_, exec_alloc_of_error e⟩
    | ok p => exact ⟨_, exec_alloc_of_ok e⟩
  | abandon a b c =>
    cases e : s.free (s.reg c) with
    | error f => exact ⟨_, exec_abandon_of_error e⟩
    | ok t => exact ⟨_, exec_abandon_of_ok e⟩
  | output a b c =>
    by_cases hle : (s.reg c).toNat ≤ 255
    · by_cases hack : s.sinkAcks = some 0
      · exact ⟨_, exec_eq_wait (i := .output a b c) ⟨hle, hack⟩⟩
      · exact ⟨_, exec_output_of_le hle hack⟩
    · exact ⟨_, exec_output_of_gt (Nat.not_le.1 hle)⟩
  | input a b c =>
    cases e : s.refill with
    | none => exact ⟨_, exec_eq_wait (i := .input a b c) (State.refill_eq_none.1 e)⟩
    | some t => exact ⟨_, exec_input_of_refill e⟩
  | loadprog a b c =>
    by_cases hb : s.reg b = 0#32
    · exact ⟨_, exec_loadprog_of_zero hb⟩
    · cases e : s.replaceProgram (s.reg b) with
      | error f => exact ⟨_, exec_loadprog_of_error hb e⟩
      | ok t => exact ⟨_, exec_loadprog_of_ok hb e⟩

/-! ### Another line source

`State.withLineIn` exchanges what the line source would answer, and `Result.withLineIn` does so in the state that a step answers. Each
operation that an instruction runs commutes with the exchange, as long as Input does not ask. -/

/-- The state with other answers of the line source. -/
def State.withLineIn (answers : List LineAnswer) (s : State) : State := { s with lineIn := answers }

/-- The answer of a step with other answers of the line source in its next state. -/
def Result.withLineIn (answers : List LineAnswer) : Result → Result
  | .next t => .next (t.withLineIn answers)
  | .fault r => .fault r
  | .refused r => .refused r

section withLineIn
variable (answers : List LineAnswer) (s : State)

@[simp] theorem State.withLineIn_reg (r : Reg) : (s.withLineIn answers).reg r = s.reg r := rfl
@[simp] theorem State.withLineIn_seg : (s.withLineIn answers).seg = s.seg := rfl

theorem State.allocate_withLineIn (n : Word) :
    (s.withLineIn answers).allocate n = (s.allocate n).map fun p => (p.1, p.2.withLineIn answers) := by
  cases e : s.allocate n with
  | error f => exact State.allocate_eq_error.2 (State.allocate_eq_error (s := s).1 e)
  | ok p =>
    obtain ⟨hcap, ⟨rest, hfree, ht⟩ | ⟨hfree, hnext, hh, ht⟩⟩ := State.allocate_eq_ok.1 e
    · exact State.allocate_eq_ok.2 ⟨hcap, .inl ⟨rest, hfree, congrArg (State.withLineIn answers) ht⟩⟩
    · exact State.allocate_eq_ok.2 ⟨hcap, .inr ⟨hfree, hnext, hh, congrArg (State.withLineIn answers) ht⟩⟩

theorem State.free_withLineIn (h : Word) :
    (s.withLineIn answers).free h = (s.free h).map (State.withLineIn answers) := by
  cases e : s.free h with
  | error f => exact State.free_eq_error.2 (State.free_eq_error (s := s).1 e)
  | ok t =>
    obtain ⟨h0, hlive, ht⟩ := State.free_eq_ok.1 e
    exact State.free_eq_ok.2 ⟨h0, hlive, congrArg (State.withLineIn answers) ht⟩

theorem State.replaceProgram_withLineIn (h : Word) :
    (s.withLineIn answers).replaceProgram h = (s.replaceProgram h).map (State.withLineIn answers) := by
  cases e : s.replaceProgram h with
  | error f => exact State.replaceProgram_eq_error.2 (State.replaceProgram_eq_error (s := s).1 e)
  | ok t =>
    obtain ⟨g, hg, hcap, ht⟩ := State.replaceProgram_eq_ok.1 e
    exact State.replaceProgram_eq_ok.2 ⟨g, hg, hcap, congrArg (State.withLineIn answers) ht⟩

theorem State.writeFlush_withLineIn (b : Byte) :
    (s.withLineIn answers).writeFlush b = (s.writeFlush b).map (State.withLineIn answers) := by
  cases e : s.writeFlush b with
  | none => exact State.writeFlush_eq_none.2 (State.writeFlush_eq_none (s := s).1 e)
  | some t =>
    obtain ⟨hack, ht⟩ := State.writeFlush_eq_some.1 e
    exact State.writeFlush_eq_some.2 ⟨hack, congrArg (State.withLineIn answers) ht⟩

theorem State.takeByte_withLineIn (c : Reg) :
    (s.withLineIn answers).takeByte c = (s.takeByte c).withLineIn answers := by
  cases e : s.pendingInput with
  | nil =>
    rw [State.takeByte_nil c e]
    exact State.takeByte_nil c e
  | cons b rest =>
    rw [State.takeByte_cons c e]
    exact State.takeByte_cons c e

/-- An instruction that does not ask the line source runs the same whatever it would answer (60_exceptions.md R170, R176). -/
theorem exec_withLineIn (i : Instr)
    (hask : ∀ a b c, i = .input a b c → s.pendingInput ≠ [] ∨ s.eofLatch = true) :
    exec i (s.withLineIn answers) = Result.withLineIn answers (exec i s) := by
  cases i with
  | add | mul | nand | halt | ortho => rfl
  | cmov a b c =>
    by_cases hc : s.reg c = 0#32
    · rw [exec_cmov_of_eq hc]
      exact exec_cmov_of_eq hc
    · rw [exec_cmov_of_ne hc]
      exact exec_cmov_of_ne hc
  | index a b c =>
    simp only [exec, execIndex, State.withLineIn_reg, State.withLineIn_seg]
    cases s.seg.read (s.reg b) (s.reg c) <;> rfl
  | amend a b c =>
    simp only [exec, execAmend, State.withLineIn_reg, State.withLineIn_seg]
    cases s.seg.write (s.reg a) (s.reg b) (s.reg c) <;> rfl
  | div a b c =>
    simp only [exec, execDiv, State.withLineIn_reg]
    cases quotient (s.reg b) (s.reg c) <;> rfl
  | alloc a b c =>
    simp only [exec, execAlloc, State.withLineIn_reg, State.allocate_withLineIn]
    cases s.allocate (s.reg c) <;> rfl
  | abandon a b c =>
    simp only [exec, execAbandon, State.withLineIn_reg, State.free_withLineIn]
    cases s.free (s.reg c) <;> rfl
  | output a b c =>
    simp only [exec, execOutput, State.withLineIn_reg, State.writeFlush_withLineIn]
    split
    · rfl
    · cases s.writeFlush (lowByte (s.reg c)) <;> rfl
  | loadprog a b c =>
    simp only [exec, execLoadprog, State.withLineIn_reg, State.replaceProgram_withLineIn]
    split
    · rfl
    · cases s.replaceProgram (s.reg b) <;> rfl
  | input a b c =>
    have hrefill : s.refill = some s := State.refill_eq_some.2 (.inr ⟨hask a b c rfl, rfl⟩)
    have hrefill' : (s.withLineIn answers).refill = some (s.withLineIn answers) :=
      State.refill_eq_some.2 (.inr ⟨hask a b c rfl, rfl⟩)
    rw [exec_input_of_refill hrefill, exec_input_of_refill hrefill', State.takeByte_withLineIn]
    rfl

end withLineIn

end Sys2Proof.Machine

namespace Sys2Proof.Proofs

open Sys2Proof.Machine

/-- Settles O8: the step only raised its fault (`raised_of_step_faulted`), and the three sources exclude each other. -/
theorem faultsArePrecise : Obligations.FaultsArePrecise := by
  intro s t hstep ht
  obtain ⟨f, p, hne, raised, source⟩ := raised_of_step_faulted hstep ht
  refine ⟨raised.faultReason.symm ▸ hne, raised.regs, raised.memory, raised.allocator, raised.input, raised.output,
    raised.capacity, ?_⟩
  rw [raised.pc, raised.faultReason]
  rcases source with ⟨hf, rfl, rfl⟩ | ⟨w, op, hf, hd, rfl, rfl⟩ | ⟨w, i, hf, hd, rfl⟩ <;> grind

/-- Settles O7: the advance before the execution, and the pc after Load Program and after every other instruction. -/
theorem onlyLoadProgramWritesPc : Obligations.OnlyLoadProgramWritesPc :=
  ⟨fun _ _ _ hr hg hpc hd => ⟨step_eq_exec hr hg hpc hd, toNat_add_one_of_lt hpc⟩,
    fun _ _ _ _ _ _ h ht => (exec_eq_next_cases h).pc_of_loadprog ht,
    fun _ _ _ hl hw h => (exec_eq_next_cases h).pc_kept hw hl⟩

/-- Settles O10: the fetch, the decoder or the instruction answers. -/
theorem runningStepAlwaysAnswers : Obligations.RunningStepAlwaysAnswers := by
  intro s hr
  cases hf : s.fetch with
  | error f => exact ⟨_, step_of_fetch_error hr hf⟩
  | ok w =>
    cases hd : decode w with
    | unknown op => exact ⟨_, step_of_unknown hr hf hd⟩
    | instr i =>
      obtain ⟨g, hg, hpc, rfl⟩ := State.fetch_eq_ok.1 hf
      rw [step_eq_exec hr hg hpc hd]
      exact exists_exec_eq_next i s.advance

/-- Settles O45: the instruction commutes with the exchange of the line source's answers (`exec_withLineIn`). -/
theorem lineSourceSeenOnlyWhenAsked : Obligations.LineSourceSeenOnlyWhenAsked := by
  intro i s t answers hask h
  calc exec i (s.withLineIn answers) = Result.withLineIn answers (exec i s) := exec_withLineIn answers s i hask
    _ = .next (t.withLineIn answers) := by rw [h]; rfl

/-- Settles O6: one clause for each way a step goes. -/
theorem stepRunsDecodedInstruction : Obligations.StepRunsDecodedInstruction := by
  refine ⟨fun s g i hr hg hpc hd => step_eq_exec hr hg hpc hd, fun s g op hr hg hpc hd => ?_, fun s g hr hg hpc => ?_,
    fun s t hr => step_ne_next hr t⟩
  · exact ⟨_, step_of_unknown hr (State.fetch_eq_ok.2 ⟨g, hg, hpc, rfl⟩) hd, onlyRaises _ s⟩
  · have hf : s.fetch = .error .outOfBoundsIndex :=
      State.fetch_eq_error.2 ⟨rfl, fun g' hg' => by cases hg.symm.trans hg'; exact hpc⟩
    exact ⟨_, step_of_fetch_error hr hf, onlyRaises _ s⟩

/-- Settles O9: the first step of the run is not taken. -/
theorem terminalStatesNeverContinue : Obligations.TerminalStatesNeverContinue := by
  intro k s t hr h
  rw [run_succ_of_not_running k hr] at h
  cases h

end Sys2Proof.Proofs
end

section
/-! PROOFS. The statements about reset and loading (70_reset_and_hazards.md): the words of a program, the fields that every Init
leaves at their reset value, and the load that succeeds, that fails and that is empty. -/

namespace Sys2Proof.Machine

/-! ### The words of a program -/

/-- Four bytes fit a word, so nothing is cut off (70_reset_and_hazards.md R191). -/
theorem wordOfBytes_toNat (b0 b1 b2 b3 : Byte) :
    (wordOfBytes b0 b1 b2 b3).toNat = b0.toNat * 2 ^ 24 + b1.toNat * 2 ^ 16 + b2.toNat * 2 ^ 8 + b3.toNat := by
  have h0 := b0.isLt
  have h1 := b1.isLt
  have h2 := b2.isLt
  have h3 := b3.isLt
  rw [wordOfBytes, BitVec.toNat_ofNat, Nat.mod_eq_of_lt (by omega)]

/-- Word `k` of a program is packed from its bytes `4k` to `4k + 3`. -/
theorem programWords_getD (p : List Byte) {k : Nat} (hk : k < p.length / 4) :
    (programWords p).getD k 0#32 =
      wordOfBytes (p.getD (4 * k) 0#8) (p.getD (4 * k + 1) 0#8) (p.getD (4 * k + 2) 0#8) (p.getD (4 * k + 3) 0#8) := by
  induction p using programWords.induct generalizing k with
  | case1 b0 b1 b2 b3 rest ih =>
    cases k with
    | zero => rfl
    | succ k =>
      simp only [List.length_cons] at hk
      exact ih (by omega)
  | case2 p hp =>
    rw [← programWords_length, programWords.eq_2 p hp] at hk
    exact absurd hk (Nat.not_lt_zero k)

/-! ### Init -/

/-- A program fails to load for one of three causes (70_reset_and_hazards.md R192, R193). -/
theorem loadFails_eq_true_iff {cap : Option Nat} {p : List Byte} :
    loadFails cap p = true ↔
      p.length % 4 ≠ 0 ∨ Config.maxSegWords < p.length / 4 ∨ ¬ Fits cap (p.length / 4) := by
  simp only [loadFails, Bool.or_eq_true, decide_eq_true_iff, overCapacity_eq_true_iff, or_assoc]

/-- Whether or not the program loads, the allocator and the input state have their reset values (10_state.md R37). -/
theorem State.init_allocator_input (cap : Option Nat) (p : List Byte) :
    (State.init cap p).freelist = [] ∧ (State.init cap p).nextHandle = 1 ∧ (State.init cap p).pendingInput = [] ∧
      (State.init cap p).eofLatch = false := by
  cases h : loadFails cap p with
  | true => rw [State.init_of_loadFails h]; exact ⟨rfl, rfl, rfl, rfl⟩
  | false => rw [State.init_of_loads h]; exact ⟨rfl, rfl, rfl, rfl⟩

/-- Whether or not the program loads, only handle 0 is live: no other one was issued yet. -/
theorem State.init_not_live (cap : Option Nat) (p : List Byte) {h : Word} (h0 : h ≠ 0#32) :
    (State.init cap p).seg.live h = false := by
  obtain ⟨-, hnext, -⟩ := State.init_allocator_input cap p
  have hn : h.toNat ≠ 0 := fun e => h0 (BitVec.eq_of_toNat_eq e)
  exact ((State.init_inv cap p).handles.fresh h (by omega)).1

/-- The segment of a program's words has their number as its length, and its word `k` is word `k` of the program. -/
theorem Segment.ofWords_programWords {p : List Byte} (hmax : p.length / 4 ≤ Config.maxSegWords) :
    (Segment.ofWords (programWords p)).len.toNat = p.length / 4 ∧
      ∀ k, k < p.length / 4 →
        (Segment.ofWords (programWords p)).get (BitVec.ofNat 32 k) = (programWords p).getD k 0#32 := by
  have hlt : p.length / 4 < Config.handleSpace := Nat.lt_succ_of_le hmax
  refine ⟨(Segment.len_ofWords (by rwa [programWords_length])).trans (programWords_length p), fun k hk => ?_⟩
  rw [Segment.get_ofWords, toNat_ofNat_of_lt_handleSpace (hk.trans hlt)]

/-- The empty program loads under every capacity. -/
theorem loadFails_nil (cap : Option Nat) : loadFails cap [] = false := by
  have hcap : overCapacity cap 0 = false := overCapacity_eq_false_iff.2 fun limit _ => Nat.zero_le limit
  exact loadFails_eq_false.2 ⟨rfl, Nat.zero_le _, hcap⟩

end Sys2Proof.Machine

namespace Sys2Proof.Proofs

open Sys2Proof.Machine

/-- Settles O12: the load succeeds, and each word of segment 0 is packed from its four bytes (`programWords_getD`). -/
theorem initLoadsProgram : Obligations.InitLoadsProgram := by
  intro cap p hmod hmax hfits
  have loads := State.init_of_loads (loadFails_eq_false.2 ⟨hmod, hmax, overCapacity_eq_false_iff.2 hfits⟩)
  obtain ⟨hlen, hget⟩ := Segment.ofWords_programWords hmax
  refine ⟨by rw [loads]; rfl, by rw [loads]; rfl, (State.init_regs cap p).2, fun r => (resetRegistersAndPc.1 cap p r).1,
    ⟨Segment.ofWords (programWords p), by rw [loads]; rfl, hlen, fun k hk => ?_⟩, fun h => State.init_not_live cap p,
    State.init_allocator_input cap p⟩
  rw [hget k hk, programWords_getD p hk, wordOfBytes_toNat]

/-- Settles O13: each of the three causes makes the load fail, and no step is taken from a Faulted state. -/
theorem initRefusesBadPrograms : Obligations.InitRefusesBadPrograms := by
  intro cap p bad
  have fails := State.init_of_loadFails (loadFails_eq_true_iff.2 bad)
  have faulted : (State.init cap p).runState = .faulted := by rw [fails]
  obtain ⟨hfree, hnext, hqueue, hlatch⟩ := State.init_allocator_input cap p
  exact ⟨faulted, by rw [fails], ⟨⟨0#32, []⟩, by rw [fails]; rfl, rfl⟩, fun h => State.init_not_live cap p,
    (State.init_regs cap p).2, fun r => (resetRegistersAndPc.1 cap p r).1, hfree, hnext, hqueue, hlatch,
    step_ne_next (by simp [faulted])⟩

/-- Settles O14: the empty program leaves no word to fetch at pc 0. -/
theorem emptyProgramFaultsAtFetch : Obligations.EmptyProgramFaultsAtFetch := by
  refine ⟨State.reset_eq_init, fun cap => ?_⟩
  have loads := State.init_of_loads (loadFails_nil cap)
  have running : (State.init cap []).runState = .running := by rw [loads]; rfl
  have hseg : (State.init cap []).seg.segment 0#32 = some (Segment.ofWords []) := by rw [loads]; rfl
  have hfetch : (State.init cap []).fetch = .error .outOfBoundsIndex :=
    State.fetch_eq_error.2 ⟨rfl, fun g hg => by cases hseg.symm.trans hg; exact Nat.zero_le _⟩
  exact ⟨running, _, step_of_fetch_error running hfetch, onlyRaises _ _, (State.init_regs cap []).2⟩

end Sys2Proof.Proofs
end

section
/-! PROOFS. The statements about encoding and decoding together (30_encoding.md R82-R93): an instruction has one of two layouts,
a word that decodes is a word of its instruction's layout, and the encoder writes the defined bits of that word. -/

namespace Sys2Proof

open Sys2Proof.Machine

/-- Every instruction is of one of the thirteen standard shapes or of the immediate shape (30_encoding.md R84, R85). -/
theorem Instr.layout_cases (i : Instr) :
    (∃ shape a b c, (i.opcode, shape) ∈ standardShapes ∧ i = shape a b c) ∨ ∃ a imm, i = .ortho a imm := by
  cases i
  case ortho a imm => exact .inr ⟨a, imm, rfl⟩
  all_goals exact .inl ⟨_, _, _, _, by simp [standardShapes, opcode], rfl⟩

/-- What a row of the opcode map gives its instructions: an opcode up to 12, no bound on an operand, and the standard-layout
encoding (30_encoding.md R84, R93). -/
theorem standardShapes_spec {op : Nat} {shape : Reg → Reg → Reg → Instr} (hmem : (op, shape) ∈ standardShapes)
    (a b c : Reg) :
    op ≤ 12 ∧ (shape a b c).opcode = op ∧ (shape a b c).wellFormed = true ∧
      encode (shape a b c) = encodeStandard op a b c := by
  fin_cases hmem <;> exact ⟨by decide, rfl, rfl, rfl⟩

/-- An immediate-layout word decodes to Orthography of its immediate, here as a word. -/
theorem Machine.ImmediateWord.decode_eq_ortho {a : Reg} {imm w : Word} (h : ImmediateWord a imm.toNat w) :
    decode w = .instr (.ortho a imm) := by
  rw [h.decode_eq, BitVec.ofNat_toNat, BitVec.setWidth_eq]

/-- `w` is a word of `i`'s layout, with `i`'s opcode and operands in its fields (30_encoding.md R82, R83). -/
inductive IsWordOf : Instr → Word → Prop where
  | standard {op : Nat} {shape : Reg → Reg → Reg → Instr} {a b c : Reg} {w : Word} (hmem : (op, shape) ∈ standardShapes)
      (hw : StandardWord op a b c w) : IsWordOf (shape a b c) w
  | immediate {a : Reg} {imm w : Word} (hw : ImmediateWord a imm.toNat w) : IsWordOf (.ortho a imm) w

theorem IsWordOf.decode_eq {i : Instr} {w : Word} (h : IsWordOf i w) : decode w = .instr i := by
  cases h with
  | standard hmem hw => exact hw.decode_eq hmem
  | immediate hw => exact hw.decode_eq_ortho

/-- A word with an opcode up to 13 is the word of some instruction (30_encoding.md R84). -/
theorem exists_isWordOf {w : Word} (h : w.toNat / 2 ^ 28 ≤ 13) : ∃ i, IsWordOf i w := by
  obtain h12 | h13 : w.toNat / 2 ^ 28 ≤ 12 ∨ w.toNat / 2 ^ 28 = 13 := by omega
  · obtain ⟨_, hmem⟩ := exists_standardShape h12
    exact ⟨_, .standard hmem (standardWord_fields w)⟩
  · have hw : ImmediateWord (fieldImmReg w) (fieldImm w).toNat w := by
      rw [fieldImm_toNat]
      exact immediateWord_fields h13
    exact ⟨_, .immediate hw⟩

/-- Only a word with an opcode up to 13 decodes to an instruction (30_encoding.md R86). -/
theorem opcode_le_of_decode {w : Word} {i : Instr} (h : decode w = .instr i) : w.toNat / 2 ^ 28 ≤ 13 := by
  by_contra hop
  rw [← opcodeField_toNat] at hop
  rw [decode_eq_unknown (by omega)] at h
  cases h

/-- The decoder inverted: the words that decode to `i` are the words of `i`'s layout with `i`'s operands. -/
theorem decode_eq_instr_iff {w : Word} {i : Instr} : decode w = .instr i ↔ IsWordOf i w := by
  refine ⟨fun h => ?_, IsWordOf.decode_eq⟩
  obtain ⟨j, hj⟩ := exists_isWordOf (opcode_le_of_decode h)
  cases h.symm.trans hj.decode_eq
  exact hj

/-- The encoder writes a word of the instruction (30_encoding.md R93). -/
theorem isWordOf_encode {i : Instr} (hwf : i.wellFormed = true) : IsWordOf i (encode i) := by
  obtain ⟨shape, a, b, c, hmem, rfl⟩ | ⟨a, imm, rfl⟩ := i.layout_cases
  · obtain ⟨hle, -, -, henc⟩ := standardShapes_spec hmem a b c
    rw [henc]
    exact .standard hmem (standardWord_encodeStandard _ a b c (by omega))
  · exact .immediate (immediateWord_encodeImmediate a imm ((wellFormed_ortho_iff a imm).1 hwf))

/-- The encoder keeps the defined bits of a standard-layout word and clears bits 27-9 (30_encoding.md R91, R93). -/
theorem Machine.StandardWord.encodeStandard_toNat {op : Nat} {a b c : Reg} {w : Word} (h : StandardWord op a b c w) :
    (encodeStandard op a b c).toNat = op * 2 ^ 28 + w.toNat % 2 ^ 9 := by
  obtain ⟨hop, ha, hb, hc⟩ := h
  rw [encodeStandard, BitVec.toNat_ofNat]
  omega

/-- An immediate-layout word has no undefined bits: the encoder gives it back (30_encoding.md R83, R93). -/
theorem Machine.ImmediateWord.encodeImmediate_eq {a : Reg} {imm w : Word} (h : ImmediateWord a imm.toNat w) :
    encodeImmediate a imm = w := by
  obtain ⟨hop, ha, himm⟩ := h
  apply BitVec.eq_of_toNat_eq
  rw [encodeImmediate, BitVec.toNat_ofNat]
  omega

/-- Bits 27-9 are no part of a standard-layout word's opcode or fields (30_encoding.md R82). -/
theorem Machine.StandardWord.of_defined_bits_eq {op : Nat} {a b c : Reg} {w w' : Word} (h : StandardWord op a b c w)
    (hop : w'.toNat / 2 ^ 28 = w.toNat / 2 ^ 28) (hlow : w'.toNat % 2 ^ 9 = w.toNat % 2 ^ 9) :
    StandardWord op a b c w' := by
  obtain ⟨hop', ha, hb, hc⟩ := h
  refine ⟨hop.trans hop', ?_, ?_, ?_⟩ <;> omega

end Sys2Proof

namespace Sys2Proof.Proofs

open Sys2Proof.Machine

/-- Settles O3: the encoder writes a word of the instruction's layout, and such a word decodes to its shape and operands. -/
theorem decodeEncodeRoundTrip : Obligations.DecodeEncodeRoundTrip :=
  fun _ hwf => (isWordOf_encode hwf).decode_eq

/-- Settles O4: the word is of the instruction's layout (`decode_eq_instr_iff`), and each layout's encoder keeps its bits. -/
theorem encodeDecodeKeepsDefinedBits : Obligations.EncodeDecodeKeepsDefinedBits := by
  intro w i hd
  cases decode_eq_instr_iff.1 hd with
  | @standard op shape a b c _ hmem hw =>
    obtain ⟨hle, hop, hwf, henc⟩ := standardShapes_spec hmem a b c
    rw [hop, henc, hw.encodeStandard_toNat, hw.1]
    exact ⟨hwf, rfl, fun _ => rfl, fun h13 => by omega⟩
  | @immediate a imm _ hw =>
    have ⟨hop, _, himm⟩ := hw
    have hlt : imm.toNat < 2 ^ 25 := by omega
    exact ⟨(wellFormed_ortho_iff a imm).2 hlt, hop.symm, fun h12 => absurd h12 (by decide : ¬ 13 ≤ 12),
      fun _ => hw.encodeImmediate_eq⟩

/-- Settles O5: two words that agree on the defined bits are words of the same opcode and fields, an opcode up to 13 always
decodes, and the six operations never read the operands they do not use. -/
theorem undefinedBitsIgnored : Obligations.UndefinedBitsIgnored := by
  refine ⟨fun w w' h12 hop hlow => ?_, fun w h13 => (exists_isWordOf h13).imp fun _ => IsWordOf.decode_eq,
    fun _ _ _ _ _ _ _ => rfl, fun _ _ _ _ _ => rfl, fun _ _ _ _ _ _ => rfl, fun _ _ _ _ _ _ => rfl,
    fun _ _ _ _ _ _ => rfl, fun _ _ _ _ _ => rfl⟩
  obtain ⟨shape, hmem⟩ := exists_standardShape h12
  have hw := standardWord_fields w
  exact ((hw.of_defined_bits_eq hop hlow).decode_eq hmem).trans (hw.decode_eq hmem).symm

end Sys2Proof.Proofs
end
